-- ==== Sys2Proof/Word.lean ====
section
/-! DEFINITION. The word types of the machine, and the 1-or-0 value of a condition. -/

namespace Sys2Proof

/-- A general register, a memory byte, a timer (10_state.md R21, R29, R32). -/
abbrev Byte := BitVec 8

/-- `I`, `pc`, a stack slot, the opcode latch, an instruction word (10_state.md R24, R26, R28, R30). -/
abbrev Word := BitVec 16

/-- A 4-bit field of an instruction that is not a register number (30_encoding.md R71: N, k, ignored bits). -/
abbrev Nibble := BitVec 4

/-- The 12-bit immediate NNN (30_encoding.md R71). -/
abbrev Addr12 := BitVec 12

/-- The number of a general register, 0 to 15 (00_scope.md R11). -/
abbrev Reg := Fin 16

/-- VF, the register that some instructions also write as a flag (10_state.md R22). -/
abbrev VF : Reg := 15

/-- "`a > b` in a value position is 1 when true and 0 when false" (00_scope.md R12), on 8 bits. -/
def boolByte (b : Bool) : Byte := if b then 1#8 else 0#8

/-- `zext_16` of a byte (00_scope.md R12). -/
def zextByte (b : Byte) : Word := b.setWidth 16

/-- `zext_16` of the 12-bit immediate (00_scope.md R12, 30_encoding.md R72). -/
def zextAddr (a : Addr12) : Word := a.setWidth 16

end Sys2Proof
end

