-- ==== Sys2Proof/Syntax.lean ====
section
/-! DEFINITION. The instructions: one constructor for each row of spec/opcode_table.json, with every field of its
word, the ignored ones included, so that a word and its instruction determine each other. -/

namespace Sys2Proof

/-- The 34 instructions of 30_encoding.md R78, in its order, and the four residual rows of unknown words (R80).
A field called `ign` or, in the two shifts, `y` is carried so that the word round-trips, and has no effect
(30_encoding.md R73, R75, R79, R83). -/
inductive Instr where
  /-- 00E0, CLS: bits 11:8 ignored (43_display.md R161). -/
  | cls (ign : Nibble)
  /-- 00EE, RET: bits 11:8 ignored (41_control_flow.md R110). -/
  | ret (ign : Nibble)
  /-- 1NNN, JP NNN (R111). -/
  | jp (nnn : Addr12)
  /-- 2NNN, CALL NNN (R112). -/
  | call (nnn : Addr12)
  /-- 3XNN, SE VX, NN (R113). -/
  | seImm (x : Reg) (nn : Byte)
  /-- 4XNN, SNE VX, NN (R114). -/
  | sneImm (x : Reg) (nn : Byte)
  /-- 5XY0, SE VX, VY: bits 3:0 ignored (R115). -/
  | seReg (x y : Reg) (ign : Nibble)
  /-- 6XNN, LD VX, NN (42_load_alu.md R130). -/
  | ldImm (x : Reg) (nn : Byte)
  /-- 7XNN, ADD VX, NN (R131). -/
  | addImm (x : Reg) (nn : Byte)
  /-- 8XY0, LD VX, VY (R132). -/
  | ldReg (x y : Reg)
  /-- 8XY1, OR VX, VY (R133). -/
  | orReg (x y : Reg)
  /-- 8XY2, AND VX, VY (R134). -/
  | andReg (x y : Reg)
  /-- 8XY3, XOR VX, VY (R135). -/
  | xorReg (x y : Reg)
  /-- 8XY4, ADD VX, VY (R140). -/
  | addReg (x y : Reg)
  /-- 8XY5, SUB VX, VY (R141). -/
  | subReg (x y : Reg)
  /-- 8XY6, SHR VX: Y ignored (R142). -/
  | shr (x y : Reg)
  /-- 8XY7, SUBN VX, VY (R143). -/
  | subnReg (x y : Reg)
  /-- 8XYE, SHL VX: Y ignored (R144). -/
  | shl (x y : Reg)
  /-- 9XY0, SNE VX, VY: bits 3:0 ignored (41_control_flow.md R116). -/
  | sneReg (x y : Reg) (ign : Nibble)
  /-- ANNN, LD I, NNN (45_index_memory.md R200). -/
  | ldI (nnn : Addr12)
  /-- BNNN, JP V0, NNN (41_control_flow.md R117). -/
  | jpV0 (nnn : Addr12)
  /-- CXNN, RND VX, NN (42_load_alu.md R145). -/
  | rnd (x : Reg) (nn : Byte)
  /-- DXYN, DRW VX, VY, N (43_display.md R162). -/
  | drw (x y : Reg) (n : Nibble)
  /-- EX9E, SKP VX (44_keypad_timer.md R180). -/
  | skp (x : Reg)
  /-- EXA1, SKNP VX (R181). -/
  | sknp (x : Reg)
  /-- FX07, LD VX, DT (R182). -/
  | ldVDt (x : Reg)
  /-- FX0A, LD VX, K (R183). -/
  | ldVK (x : Reg)
  /-- FX15, LD DT, VX (R184). -/
  | ldDtV (x : Reg)
  /-- FX18, LD ST, VX (R185). -/
  | ldStV (x : Reg)
  /-- FX1E, ADD I, VX (45_index_memory.md R201). -/
  | addI (x : Reg)
  /-- FX29, LD F, VX (R202). -/
  | ldF (x : Reg)
  /-- FX33, LD B, VX (R203). -/
  | ldB (x : Reg)
  /-- FX55, LD [I], VX (R204). -/
  | ldMemV (x : Reg)
  /-- FX65, LD VX, [I] (R205). -/
  | ldVMem (x : Reg)
  /-- Group 0 with a low byte that is neither E0 nor EE (40_cycle.md R96, 30_encoding.md R80). -/
  | unknown0 (x : Nibble) (nn : Byte)
  /-- Group 8 with a sub-selector k of 8, 9, A, B, C, D or F (R80). -/
  | unknown8 (x y k : Nibble)
  /-- Group E with a low byte that is neither 9E nor A1 (R80). -/
  | unknownE (x : Nibble) (nn : Byte)
  /-- Group F with a low byte that is none of the nine defined ones (R80). -/
  | unknownF (x : Nibble) (nn : Byte)
deriving DecidableEq, Repr

/-- The unknown-opcode arm of 40_cycle.md R96, in any of its four groups. -/
def Instr.isUnknown : Instr → Bool
  | .unknown0 _ _ | .unknown8 _ _ _ | .unknownE _ _ | .unknownF _ _ => true
  | .cls _ | .ret _ | .jp _ | .call _ | .seImm _ _ | .sneImm _ _ | .seReg _ _ _ | .ldImm _ _ | .addImm _ _
  | .ldReg _ _ | .orReg _ _ | .andReg _ _ | .xorReg _ _ | .addReg _ _ | .subReg _ _ | .shr _ _ | .subnReg _ _
  | .shl _ _ | .sneReg _ _ _ | .ldI _ | .jpV0 _ | .rnd _ _ | .drw _ _ _ | .skp _ | .sknp _ | .ldVDt _ | .ldVK _
  | .ldDtV _ | .ldStV _ | .addI _ | .ldF _ | .ldB _ | .ldMemV _ | .ldVMem _ => false

end Sys2Proof
end

