-- ==== Sys2Proof/WellFormed.lean ====
section
/-! DEFINITION. Which instructions some word encodes: the bounds of the fields are in their types, so what is left
to check is that an unknown-opcode term holds no selector of a defined instruction (30_encoding.md R75 to R77, R80). -/

namespace Sys2Proof

/-- The low bytes that group 0 defines (30_encoding.md R75). -/
def group0Defined : List Byte := [0xE0#8, 0xEE#8]

/-- The sub-selectors k that group 8 defines (30_encoding.md R76). -/
def group8Defined : List Nibble := [0#4, 1#4, 2#4, 3#4, 4#4, 5#4, 6#4, 7#4, 0xE#4]

/-- The low bytes that group E defines (30_encoding.md R77). -/
def groupEDefined : List Byte := [0x9E#8, 0xA1#8]

/-- The low bytes that group F defines (30_encoding.md R77). -/
def groupFDefined : List Byte :=
  [0x07#8, 0x0A#8, 0x15#8, 0x18#8, 0x1E#8, 0x29#8, 0x33#8, 0x55#8, 0x65#8]

/-- The instruction is the reading of some word. -/
def Instr.wellFormed : Instr → Bool
  | .unknown0 _ nn => !group0Defined.contains nn
  | .unknown8 _ _ k => !group8Defined.contains k
  | .unknownE _ nn => !groupEDefined.contains nn
  | .unknownF _ nn => !groupFDefined.contains nn
  | .cls _ | .ret _ | .jp _ | .call _ | .seImm _ _ | .sneImm _ _ | .seReg _ _ _ | .ldImm _ _ | .addImm _ _
  | .ldReg _ _ | .orReg _ _ | .andReg _ _ | .xorReg _ _ | .addReg _ _ | .subReg _ _ | .shr _ _ | .subnReg _ _
  | .shl _ _ | .sneReg _ _ _ | .ldI _ | .jpV0 _ | .rnd _ _ | .drw _ _ _ | .skp _ | .sknp _ | .ldVDt _ | .ldVK _
  | .ldDtV _ | .ldStV _ | .addI _ | .ldF _ | .ldB _ | .ldMemV _ | .ldVMem _ => true

end Sys2Proof
end

