-- ==== Sys2Proof/Decode.lean ====
section
/-! DEFINITION. The decoder of 30_encoding.md R70 to R82, total on words and on byte lists, the encoder written from
the formats of R73, and the opcode map of R78 as a list of rows. -/

namespace Sys2Proof

/-- Field G, `w[15:12]` (30_encoding.md R71). -/
def fieldG (w : Word) : Nibble := w.extractLsb' 12 4
/-- Field X, `w[11:8]`, as bits (R71). -/
def fieldX (w : Word) : Nibble := w.extractLsb' 8 4
/-- Field Y, `w[7:4]`, as bits (R71). -/
def fieldY (w : Word) : Nibble := w.extractLsb' 4 4
/-- Field N, `w[3:0]` (R71). -/
def fieldN (w : Word) : Nibble := w.extractLsb' 0 4
/-- Field NN, `w[7:0]` (R71). -/
def fieldNN (w : Word) : Byte := w.extractLsb' 0 8
/-- Field NNN, `w[11:0]` (R71). -/
def fieldNNN (w : Word) : Addr12 := w.extractLsb' 0 12

/-- The register a 4-bit field selects: "X and Y select `V[X]` and `V[Y]`" (R72). -/
def regOf (b : Nibble) : Reg := b.toFin
/-- The 4 bits of a register number. -/
def regBits (r : Reg) : Nibble := BitVec.ofFin r

/-- Group 0 selects on the low byte alone, whatever bits 11:8 hold (R75). -/
def decodeGroup0 (x : Nibble) (nn : Byte) : Instr :=
  if nn = 0xE0#8 then .cls x
  else if nn = 0xEE#8 then .ret x
  else .unknown0 x nn

/-- Group 8 selects on the low nibble (R76). -/
def decodeGroup8 (x y k : Nibble) : Instr :=
  if k = 0#4 then .ldReg (regOf x) (regOf y)
  else if k = 1#4 then .orReg (regOf x) (regOf y)
  else if k = 2#4 then .andReg (regOf x) (regOf y)
  else if k = 3#4 then .xorReg (regOf x) (regOf y)
  else if k = 4#4 then .addReg (regOf x) (regOf y)
  else if k = 5#4 then .subReg (regOf x) (regOf y)
  else if k = 6#4 then .shr (regOf x) (regOf y)
  else if k = 7#4 then .subnReg (regOf x) (regOf y)
  else if k = 0xE#4 then .shl (regOf x) (regOf y)
  else .unknown8 x y k

/-- Group E selects on the low byte (R77). -/
def decodeGroupE (x : Nibble) (nn : Byte) : Instr :=
  if nn = 0x9E#8 then .skp (regOf x)
  else if nn = 0xA1#8 then .sknp (regOf x)
  else .unknownE x nn

/-- Group F selects on the low byte (R77). -/
def decodeGroupF (x : Nibble) (nn : Byte) : Instr :=
  if nn = 0x07#8 then .ldVDt (regOf x)
  else if nn = 0x0A#8 then .ldVK (regOf x)
  else if nn = 0x15#8 then .ldDtV (regOf x)
  else if nn = 0x18#8 then .ldStV (regOf x)
  else if nn = 0x1E#8 then .addI (regOf x)
  else if nn = 0x29#8 then .ldF (regOf x)
  else if nn = 0x33#8 then .ldB (regOf x)
  else if nn = 0x55#8 then .ldMemV (regOf x)
  else if nn = 0x65#8 then .ldVMem (regOf x)
  else .unknownF x nn

/-- The first level of the dispatch: the 16 values of G (R74). "Decode is total": every word is one of the 34
instructions or unknown (R82). -/
def decodeWord (w : Word) : Instr :=
  match (fieldG w).toNat with
  | 0x0 => decodeGroup0 (fieldX w) (fieldNN w)
  | 0x1 => .jp (fieldNNN w)
  | 0x2 => .call (fieldNNN w)
  | 0x3 => .seImm (regOf (fieldX w)) (fieldNN w)
  | 0x4 => .sneImm (regOf (fieldX w)) (fieldNN w)
  | 0x5 => .seReg (regOf (fieldX w)) (regOf (fieldY w)) (fieldN w)
  | 0x6 => .ldImm (regOf (fieldX w)) (fieldNN w)
  | 0x7 => .addImm (regOf (fieldX w)) (fieldNN w)
  | 0x8 => decodeGroup8 (fieldX w) (fieldY w) (fieldN w)
  | 0x9 => .sneReg (regOf (fieldX w)) (regOf (fieldY w)) (fieldN w)
  | 0xA => .ldI (fieldNNN w)
  | 0xB => .jpV0 (fieldNNN w)
  | 0xC => .rnd (regOf (fieldX w)) (fieldNN w)
  | 0xD => .drw (regOf (fieldX w)) (regOf (fieldY w)) (fieldN w)
  | 0xE => decodeGroupE (fieldX w) (fieldNN w)
  | _ => decodeGroupF (fieldX w) (fieldNN w)

/-- The big-endian word of two bytes: the first is bits 15:8 (30_encoding.md R70, 20_memory.md R53). -/
def wordOfBytes (hi lo : Byte) : Word := hi ++ lo
/-- Bits 15:8, the byte at the lower address (R70). -/
def hiByte (w : Word) : Byte := w.extractLsb' 8 8
/-- Bits 7:0, the byte at the higher address (R70). -/
def loByte (w : Word) : Byte := w.extractLsb' 0 8

/-- Why a byte list is not read as an instruction. -/
inductive DecodeError where
  /-- Fewer than the two bytes of an instruction (30_encoding.md R70). -/
  | truncated
deriving DecidableEq, Repr

/-- What the decoder answers on a byte list: the instruction and the bytes after it, or a rejection by name. -/
inductive DecodeResult where
  | ok (i : Instr) (rest : List Byte)
  | rejected (e : DecodeError)
deriving DecidableEq, Repr

/-- The decoder on bytes: every instruction is the next two bytes, big-endian (R70). -/
def decode : List Byte → DecodeResult
  | hi :: lo :: rest => .ok (decodeWord (wordOfBytes hi lo)) rest
  | [_] => .rejected .truncated
  | [] => .rejected .truncated

/-! The encoder, from the formats of 30_encoding.md R73. -/

/-- Format NNN: `gggg nnnn nnnn nnnn`. -/
def fmtNNN (g : Nibble) (nnn : Addr12) : Word := g ++ nnn
/-- Formats XNN, XKK and FIX0: `gggg xxxx nnnn nnnn`. -/
def fmtXNN (g x : Nibble) (nn : Byte) : Word := g ++ (x ++ nn : Addr12)
/-- Formats XY_, XYK and XYN: `gggg xxxx yyyy nnnn`. -/
def fmtXYN (g x y n : Nibble) : Word := g ++ (x ++ (y ++ n : Byte) : Addr12)

/-- The word of an instruction (30_encoding.md R73, R78). -/
def encode : Instr → Word
  | .cls ign => fmtXNN 0x0#4 ign 0xE0#8
  | .ret ign => fmtXNN 0x0#4 ign 0xEE#8
  | .jp nnn => fmtNNN 0x1#4 nnn
  | .call nnn => fmtNNN 0x2#4 nnn
  | .seImm x nn => fmtXNN 0x3#4 (regBits x) nn
  | .sneImm x nn => fmtXNN 0x4#4 (regBits x) nn
  | .seReg x y ign => fmtXYN 0x5#4 (regBits x) (regBits y) ign
  | .ldImm x nn => fmtXNN 0x6#4 (regBits x) nn
  | .addImm x nn => fmtXNN 0x7#4 (regBits x) nn
  | .ldReg x y => fmtXYN 0x8#4 (regBits x) (regBits y) 0x0#4
  | .orReg x y => fmtXYN 0x8#4 (regBits x) (regBits y) 0x1#4
  | .andReg x y => fmtXYN 0x8#4 (regBits x) (regBits y) 0x2#4
  | .xorReg x y => fmtXYN 0x8#4 (regBits x) (regBits y) 0x3#4
  | .addReg x y => fmtXYN 0x8#4 (regBits x) (regBits y) 0x4#4
  | .subReg x y => fmtXYN 0x8#4 (regBits x) (regBits y) 0x5#4
  | .shr x y => fmtXYN 0x8#4 (regBits x) (regBits y) 0x6#4
  | .subnReg x y => fmtXYN 0x8#4 (regBits x) (regBits y) 0x7#4
  | .shl x y => fmtXYN 0x8#4 (regBits x) (regBits y) 0xE#4
  | .sneReg x y ign => fmtXYN 0x9#4 (regBits x) (regBits y) ign
  | .ldI nnn => fmtNNN 0xA#4 nnn
  | .jpV0 nnn => fmtNNN 0xB#4 nnn
  | .rnd x nn => fmtXNN 0xC#4 (regBits x) nn
  | .drw x y n => fmtXYN 0xD#4 (regBits x) (regBits y) n
  | .skp x => fmtXNN 0xE#4 (regBits x) 0x9E#8
  | .sknp x => fmtXNN 0xE#4 (regBits x) 0xA1#8
  | .ldVDt x => fmtXNN 0xF#4 (regBits x) 0x07#8
  | .ldVK x => fmtXNN 0xF#4 (regBits x) 0x0A#8
  | .ldDtV x => fmtXNN 0xF#4 (regBits x) 0x15#8
  | .ldStV x => fmtXNN 0xF#4 (regBits x) 0x18#8
  | .addI x => fmtXNN 0xF#4 (regBits x) 0x1E#8
  | .ldF x => fmtXNN 0xF#4 (regBits x) 0x29#8
  | .ldB x => fmtXNN 0xF#4 (regBits x) 0x33#8
  | .ldMemV x => fmtXNN 0xF#4 (regBits x) 0x55#8
  | .ldVMem x => fmtXNN 0xF#4 (regBits x) 0x65#8
  | .unknown0 x nn => fmtXNN 0x0#4 x nn
  | .unknown8 x y k => fmtXYN 0x8#4 x y k
  | .unknownE x nn => fmtXNN 0xE#4 x nn
  | .unknownF x nn => fmtXNN 0xF#4 x nn

/-- The two bytes of an instruction as memory holds them (30_encoding.md R70). -/
def encodeBytes (i : Instr) : List Byte := [hiByte (encode i), loByte (encode i)]

/-- A row of the opcode map: its number there, and the value its words have under its mask (30_encoding.md R78). -/
structure OpcodeRow where
  number : Nat
  matchBits : Word
  mask : Word
deriving DecidableEq, Repr

/-- Rows 1 to 17 of the opcode map of 30_encoding.md R78. -/
def opcodeRowsLow : List OpcodeRow :=
  [⟨1, 0x00E0#16, 0xF0FF#16⟩, ⟨2, 0x00EE#16, 0xF0FF#16⟩, ⟨3, 0x1000#16, 0xF000#16⟩,
   ⟨4, 0x2000#16, 0xF000#16⟩, ⟨5, 0x3000#16, 0xF000#16⟩, ⟨6, 0x4000#16, 0xF000#16⟩,
   ⟨7, 0x5000#16, 0xF000#16⟩, ⟨8, 0x6000#16, 0xF000#16⟩, ⟨9, 0x7000#16, 0xF000#16⟩,
   ⟨10, 0x8000#16, 0xF00F#16⟩, ⟨11, 0x8001#16, 0xF00F#16⟩, ⟨12, 0x8002#16, 0xF00F#16⟩,
   ⟨13, 0x8003#16, 0xF00F#16⟩, ⟨14, 0x8004#16, 0xF00F#16⟩, ⟨15, 0x8005#16, 0xF00F#16⟩,
   ⟨16, 0x8006#16, 0xF00F#16⟩, ⟨17, 0x8007#16, 0xF00F#16⟩]

/-- Rows 18 to 34 of the opcode map of 30_encoding.md R78. -/
def opcodeRowsHigh : List OpcodeRow :=
  [⟨18, 0x800E#16, 0xF00F#16⟩, ⟨19, 0x9000#16, 0xF000#16⟩, ⟨20, 0xA000#16, 0xF000#16⟩,
   ⟨21, 0xB000#16, 0xF000#16⟩, ⟨22, 0xC000#16, 0xF000#16⟩, ⟨23, 0xD000#16, 0xF000#16⟩,
   ⟨24, 0xE09E#16, 0xF0FF#16⟩, ⟨25, 0xE0A1#16, 0xF0FF#16⟩, ⟨26, 0xF007#16, 0xF0FF#16⟩,
   ⟨27, 0xF00A#16, 0xF0FF#16⟩, ⟨28, 0xF015#16, 0xF0FF#16⟩, ⟨29, 0xF018#16, 0xF0FF#16⟩,
   ⟨30, 0xF01E#16, 0xF0FF#16⟩, ⟨31, 0xF029#16, 0xF0FF#16⟩, ⟨32, 0xF033#16, 0xF0FF#16⟩,
   ⟨33, 0xF055#16, 0xF0FF#16⟩, ⟨34, 0xF065#16, 0xF0FF#16⟩]

/-- The opcode map of 30_encoding.md R78. -/
def opcodeRows : List OpcodeRow := opcodeRowsLow ++ opcodeRowsHigh

/-- The word is one of the row's (30_encoding.md R78: "mask" shows which bits are compared). -/
def OpcodeRow.hits (r : OpcodeRow) (w : Word) : Bool := w &&& r.mask == r.matchBits

/-- The number the opcode map of R78 gives an instruction; none for the unknown arm. -/
def Instr.rowNumber : Instr → Option Nat
  | .cls _ => some 1 | .ret _ => some 2 | .jp _ => some 3 | .call _ => some 4 | .seImm _ _ => some 5
  | .sneImm _ _ => some 6 | .seReg _ _ _ => some 7 | .ldImm _ _ => some 8 | .addImm _ _ => some 9
  | .ldReg _ _ => some 10 | .orReg _ _ => some 11 | .andReg _ _ => some 12 | .xorReg _ _ => some 13
  | .addReg _ _ => some 14 | .subReg _ _ => some 15 | .shr _ _ => some 16 | .subnReg _ _ => some 17
  | .shl _ _ => some 18 | .sneReg _ _ _ => some 19 | .ldI _ => some 20 | .jpV0 _ => some 21
  | .rnd _ _ => some 22 | .drw _ _ _ => some 23 | .skp _ => some 24 | .sknp _ => some 25
  | .ldVDt _ => some 26 | .ldVK _ => some 27 | .ldDtV _ => some 28 | .ldStV _ => some 29
  | .addI _ => some 30 | .ldF _ => some 31 | .ldB _ => some 32 | .ldMemV _ => some 33 | .ldVMem _ => some 34
  | .unknown0 _ _ => none | .unknown8 _ _ _ => none | .unknownE _ _ => none | .unknownF _ _ => none

/-- The group of an instruction, the value of G that selects its handler (30_encoding.md R74). -/
def Instr.group : Instr → Nat
  | .cls _ | .ret _ | .unknown0 _ _ => 0x0
  | .jp _ => 0x1 | .call _ => 0x2 | .seImm _ _ => 0x3 | .sneImm _ _ => 0x4 | .seReg _ _ _ => 0x5
  | .ldImm _ _ => 0x6 | .addImm _ _ => 0x7
  | .ldReg _ _ | .orReg _ _ | .andReg _ _ | .xorReg _ _ | .addReg _ _ | .subReg _ _ | .shr _ _
  | .subnReg _ _ | .shl _ _ | .unknown8 _ _ _ => 0x8
  | .sneReg _ _ _ => 0x9 | .ldI _ => 0xA | .jpV0 _ => 0xB | .rnd _ _ => 0xC | .drw _ _ _ => 0xD
  | .skp _ | .sknp _ | .unknownE _ _ => 0xE
  | .ldVDt _ | .ldVK _ | .ldDtV _ | .ldStV _ | .addI _ | .ldF _ | .ldB _ | .ldMemV _ | .ldVMem _
  | .unknownF _ _ => 0xF

/-- The instruction word of `nbits` bits numbered as spec/opcode_table.json numbers them: an instruction of this
machine is one 16-bit word, so its bits are bits 15:0 of `w`, and the bits above `nbits` are 0. -/
def tableWord (nbits w : Nat) : Word := BitVec.ofNat 16 (w % 2 ^ nbits)

/-- The instruction this decoder reads from that word, laid out in memory order. -/
def decodeTableWord (nbits w : Nat) : Option Instr :=
  match decode [hiByte (tableWord nbits w), loByte (tableWord nbits w)] with
  | .ok i _ => some i
  | .rejected _ => none

end Sys2Proof
end

