-- ==== Sys2Proof/Config.lean ====
section
/-! DEFINITION. The implementation parameters of 00_scope.md R8, and the one free value. -/

namespace Sys2Proof.Config

/-- MEM_SIZE: addresses 0x000 to 0xFFF exist (00_scope.md R8, 20_memory.md R50). -/
abbrev memSize : Nat := 4096

/-- FONT_SIZE: the font occupies 0x000 to 0x04F (00_scope.md R8, 10_state.md R34). -/
abbrev fontSize : Nat := 80

/-- PROG_BASE: the reset `pc` and the address of a program image (00_scope.md R8). -/
abbrev progBase : Nat := 512

/-- PROG_MAX: the longest program image (00_scope.md R8, 70_reset_and_hazards.md R261). -/
abbrev progMax : Nat := 3584

/-- SCREEN_W (00_scope.md R8). -/
abbrev screenW : Nat := 64

/-- SCREEN_H (00_scope.md R8). -/
abbrev screenH : Nat := 32

/-- The byte that `Rand()` returns on the n-th draw for which the host has driven no byte: a FREE VALUE.
"A model treats each `Rand()` as a free draw over 0 to 255, because the source gives no generator, seed or
sequence" (60_exceptions.md R244, 42_load_alu.md R145, D24). It has no body, so nothing can be proved of it
(notes/assumptions/4.md). -/
opaque freeRandByte : Nat → Byte

end Sys2Proof.Config
end

