-- ==== Sys2Proof/Machine/Font.lean ====
section
/-! DEFINITION. The parameter FONT: its shape, and the default table of 10_state.md R34. -/

namespace Sys2Proof.Machine

/-- The parameter FONT: 16 glyphs of 5 rows, each the 4 visible pixels of a byte whose low 4 bits are 0
(10_state.md R34: "Whatever FONT holds, it must keep the source's shape"; D16). -/
abbrev Font := Vector (Vector Nibble 5) 16

/-- The default FONT, the table of 10_state.md R34 (PRESUMED: the spec marks it as general knowledge;
notes/assumptions/2.md). -/
def defaultFont : Font :=
  #v[#v[0xF, 0x9, 0x9, 0x9, 0xF], #v[0x2, 0x6, 0x2, 0x2, 0x7],
     #v[0xF, 0x1, 0xF, 0x8, 0xF], #v[0xF, 0x1, 0xF, 0x1, 0xF],
     #v[0x9, 0x9, 0xF, 0x1, 0x1], #v[0xF, 0x8, 0xF, 0x1, 0xF],
     #v[0xF, 0x8, 0xF, 0x9, 0xF], #v[0xF, 0x1, 0x2, 0x4, 0x4],
     #v[0xF, 0x9, 0xF, 0x9, 0xF], #v[0xF, 0x9, 0xF, 0x1, 0xF],
     #v[0xF, 0x9, 0xF, 0x9, 0x9], #v[0xE, 0x9, 0xE, 0x9, 0xE],
     #v[0xF, 0x8, 0x8, 0x8, 0xF], #v[0xE, 0x9, 0x9, 0x9, 0xE],
     #v[0xF, 0x8, 0xF, 0x8, 0xF], #v[0xF, 0x8, 0xF, 0x8, 0x8]]

end Sys2Proof.Machine
end

