-- ==== Sys2Proof/Machine/State.lean ====
section
/-! DEFINITION. The state of the core (10_state.md R20), as plain data, with its values at reset (R40), and the
reasons a step may stop. -/

namespace Sys2Proof.Machine

/-- The causes of a fault (60_exceptions.md R223). A meaning that raises one answers a NEXT state whose `fault` field
holds the record, as R221 describes it; the host's `Outcome.fault` is never answered (notes/assumptions/1.md).
Every one of them is safe: the reference goes on with state that its source calls undefined, and no claim about the
model can lean on that state (93_implementation_defined.md, D2 to D8). -/
inductive Fault where
  /-- Code 1, raised by every step's fetch when `pc + 1 > 0xFFF` (40_cycle.md R91). Safe. -/
  | fetchOutOfRange
  /-- Code 2, raised by 2NNN when `sp = 16` (41_control_flow.md R112). Safe. -/
  | stackOverflow
  /-- Code 3, raised by 00EE when `sp = 0` (41_control_flow.md R110). Safe. -/
  | stackUnderflow
  /-- Code 4, raised by DXYN, FX33, FX55 and FX65 when an address to be accessed is above 0xFFF
  (20_memory.md R52). Safe. -/
  | memoryOutOfRange
  /-- Code 5, raised by DXYN when a set sprite bit falls off the screen (43_display.md R162). Safe. -/
  | drawOffScreen
  /-- Code 6, raised by EX9E and EXA1 when `V[X] > 15` (44_keypad_timer.md R180, R181). Safe. -/
  | keyIndexOutOfRange
deriving DecidableEq, Repr

/-- Why the model gives no meaning. -/
inductive Refusal where
  /-- An instruction without a meaning yet; only an arm of `exec` may raise it, and none does. Safe. -/
  | notModelled (mnemonic : String)
  /-- Raised by the host action `boot` for an image of more than 3584 bytes, of the length given:
  "undefined", "a longer image is refused: it has no meaning" (70_reset_and_hazards.md R261, D29). Safe. -/
  | imageTooLong (length : Nat)
deriving DecidableEq, Repr

/-- The fault record (10_state.md R36). -/
structure FaultRecord where
  /-- One of the causes of 60_exceptions.md R223. -/
  cause : Fault
  /-- The address of the faulting instruction. -/
  pc : Word
  /-- Its word, none for a fetch fault. -/
  opcode : Option Word
  /-- The offending value, as R223 says for each cause. -/
  info : Nat
deriving DecidableEq, Repr

/-- The diagnostic `Unknown(opcode, pc)` (60_exceptions.md R228). -/
structure Diagnostic where
  opcode : Word
  pc : Word
deriving DecidableEq, Repr

/-- The memory (10_state.md R32): the parameter FONT, which fixes the contents after `init`, and the cells that
differ from those contents, in the canonical form of `Memory.wf`. -/
structure Memory where
  font : Font
  cells : List Host.Cell
deriving DecidableEq, Repr

/-- The framebuffer (10_state.md R33): cell (x, y) is element `y*64 + x`. -/
abbrev Framebuffer := Vector Bool 2048

/-- The whole state. The fields down to `fault` are the rows of 10_state.md R20. -/
structure State where
  /-- `V[0..15]` (R21). -/
  v : Vector Byte 16
  /-- The index register `I` (R26). -/
  i : Word
  /-- The program counter (R24). -/
  pc : Word
  /-- The number of saved return addresses, 0 to 16 (R27). -/
  sp : Fin 17
  /-- `stack[0..15]` (R28). -/
  stack : Vector Word 16
  /-- The delay timer (R29). -/
  dt : Byte
  /-- The sound timer (R29); also the output port `sound_timer` (60_exceptions.md R245). -/
  st : Byte
  /-- The latch of the fetched word (R30). -/
  opcode : Word
  /-- The redraw flag (R31). -/
  redraw : Bool
  /-- Memory (R32). -/
  mem : Memory
  /-- The framebuffer (R33). -/
  fb : Framebuffer
  /-- `Key[0..15]` (R35). -/
  keys : Vector Bool 16
  /-- The fault record, if the core is Faulted (R36). -/
  fault : Option FaultRecord
  /-- The output port `diag` of the last step (40_cycle.md R100, 60_exceptions.md R228, R240). -/
  diag : Option Diagnostic
  /-- The input port `rand_byte`: the byte the host has driven for the next draw, if it has driven one
  (60_exceptions.md R240, R244; the model's own field, notes/assumptions/4.md). -/
  randByte : Option Byte
  /-- How many draws there have been: it selects the free byte of the next one (the model's own field,
  notes/assumptions/4.md). -/
  draws : Nat
deriving DecidableEq, Repr

/-- What `init` leaves for a given FONT: the table of 10_state.md R40, and no diagnostic, driven byte or draw. -/
def State.initial (font : Font) : State where
  v := Vector.replicate 16 0#8
  i := 0#16
  pc := 0x200#16
  sp := 0
  stack := Vector.replicate 16 0#16
  dt := 0#8
  st := 0#8
  opcode := 0#16
  redraw := false
  mem := { font := font, cells := [] }
  fb := Vector.replicate 2048 false
  keys := Vector.replicate 16 false
  fault := none
  diag := none
  randByte := none
  draws := 0

/-- The machine right after reset, with the default FONT (10_state.md R34, R40). -/
def State.reset : State := State.initial defaultFont

end Sys2Proof.Machine
end

