-- ==== Sys2Proof/Machine/Ops.lean ====
section
/-! DEFINITION. The named operations over memory, registers, framebuffer and timers, the phases of a step that do not
depend on the instruction, and raising a fault. -/

namespace Sys2Proof.Machine

/-- What a step, a meaning or a host action answers. -/
abbrev Result := Host.Outcome State Fault Refusal

/-! ### Memory -/

/-- What an address reads as while nothing has been written to it: FONT at 0x000..0x04F, glyph g at `5*g`
(10_state.md R34), and 0x00 elsewhere (R40). -/
def Memory.initialByte (m : Memory) (a : Nat) : Byte :=
  if h : a < 80 then (m.font[a / 5]'(by omega))[a % 5]'(by omega) ++ 0#4 else 0#8

/-- The byte listed at an address, if one is. -/
def cellAt : List Host.Cell → Nat → Option Byte
  | [], _ => none
  | (b, w) :: rest, a => if a = b then some w else cellAt rest a

/-- The list with the byte listed at its place, in rising order of address. -/
def cellPut : List Host.Cell → Nat → Byte → List Host.Cell
  | [], a, v => [(a, v)]
  | (b, w) :: rest, a, v =>
    if a < b then (a, v) :: (b, w) :: rest
    else if a = b then (a, v) :: rest
    else (b, w) :: cellPut rest a v

/-- The list without the address. -/
def cellErase : List Host.Cell → Nat → List Host.Cell
  | [], _ => []
  | (b, w) :: rest, a => if a = b then cellErase rest a else (b, w) :: cellErase rest a

/-- `MemRead(addr, 1)` of an address in range (00_scope.md R13); every instruction that reads checks the range first
(20_memory.md R52), so what an address above 0xFFF reads as here reaches no instruction. -/
def Memory.read (m : Memory) (a : Nat) : Byte := (cellAt m.cells a).getD (m.initialByte a)

/-- `MemWrite(addr, 1, v)` (00_scope.md R13), which keeps the canonical form. Every instruction that writes checks the
range first (20_memory.md R52); an address above 0xFFF would write nothing. -/
def Memory.write (m : Memory) (a : Nat) (v : Byte) : Memory :=
  if a < Config.memSize then
    { m with cells := if v = m.initialByte a then cellErase m.cells a else cellPut m.cells a v }
  else m

/-- The addresses of the list rise strictly and are all at least `low`. -/
def cellsRise : Nat → List Host.Cell → Bool
  | _, [] => true
  | low, (a, _) :: rest => decide (low ≤ a) && cellsRise (a + 1) rest

/-- The canonical form: addresses strictly rising, all of them in memory, and no entry equal to what an unlisted
address reads as. -/
def Memory.wf (m : Memory) : Bool :=
  cellsRise 0 m.cells && m.cells.all fun c => decide (c.1 < Config.memSize) && decide (c.2 ≠ m.initialByte c.1)

/-- One byte of the state's memory. -/
def State.readByte (s : State) (a : Nat) : Byte := s.mem.read a

/-- Store one byte. -/
def State.writeByte (s : State) (a : Nat) (v : Byte) : State := { s with mem := s.mem.write a v }

/-! ### Registers -/

/-- Read `V[r]` (00_scope.md R11). -/
def State.readV (s : State) (r : Reg) : Byte := s.v[r]

/-- `V[r] <- b`: any of the 16 registers, none hard-wired (10_state.md R21). -/
def State.writeV (s : State) (r : Reg) (b : Byte) : State := { s with v := s.v.set r b }

/-- `I <- w`: never range-checked (10_state.md R26). -/
def State.setI (s : State) (w : Word) : State := { s with i := w }

/-- `pc <- w` (00_scope.md R13). -/
def State.setPc (s : State) (w : Word) : State := { s with pc := w }

/-- `pc+=2`, mod 65536 (40_cycle.md R94). -/
def State.advance (s : State) : State := s.setPc (s.pc + 2#16)

/-- `pc+=4`, mod 65536: a taken skip (40_cycle.md R94). -/
def State.skip (s : State) : State := s.setPc (s.pc + 4#16)

/-- The next `pc` of a skip instruction: `pc+=4` when its condition holds, else `pc+=2`. -/
def State.skipIf (s : State) (taken : Bool) : State := if taken then s.skip else s.advance

/-- `DT <- b` (10_state.md R29). -/
def State.setDt (s : State) (b : Byte) : State := { s with dt := b }

/-- `ST <- b` (10_state.md R29). -/
def State.setSt (s : State) (b : Byte) : State := { s with st := b }

/-! ### Stack -/

/-- `stack[sp] <- pc; sp <- sp + 1` (41_control_flow.md R112). -/
def State.pushPc (s : State) (h : s.sp.val < 16) : State :=
  { s with stack := s.stack.set s.sp.val s.pc, sp := ⟨s.sp.val + 1, by omega⟩ }

/-- `sp <- sp - 1`: the slot keeps its value (41_control_flow.md R110, 10_state.md R28). -/
def State.popSlot (s : State) : State := { s with sp := ⟨s.sp.val - 1, by omega⟩ }

/-- The slot the next return reads, `stack[sp - 1]` (10_state.md R28). -/
def State.topOfStack (s : State) : Word := s.stack[s.sp.val - 1]'(by omega)

/-! ### Framebuffer -/

/-- The element of cell (x, y) (10_state.md R33). -/
def cellIndex (x y : Nat) : Nat := y * 64 + x

/-- The position is on the screen (43_display.md R160). -/
def onScreen (p : Nat × Nat) : Bool := decide (p.1 < Config.screenW) && decide (p.2 < Config.screenH)

/-- `Fb[x, y]`, also the output port `fb_read` (60_exceptions.md R240); off the screen there is no cell, and the
answer false reaches no instruction, since a draw faults first (43_display.md R162). -/
def Framebuffer.cell (fb : Framebuffer) (x y : Nat) : Bool :=
  if onScreen (x, y) then fb[cellIndex x y]?.getD false else false

/-- `Fb[x, y] <- Fb[x, y] XOR 1` of a cell on the screen (43_display.md R162). -/
def Framebuffer.toggle (fb : Framebuffer) (x y : Nat) : Framebuffer :=
  fb.setIfInBounds (cellIndex x y) (!Framebuffer.cell fb x y)

/-- Every cell 0 (43_display.md R161). -/
def Framebuffer.clear : Framebuffer := Vector.replicate 2048 false

/-- Replace the framebuffer and set `redraw` (43_display.md R161, R162). -/
def State.showFb (s : State) (fb : Framebuffer) : State := { s with fb := fb, redraw := true }

/-! ### Random byte -/

/-- `Rand()`: the byte the host has driven, else a free one (60_exceptions.md R244). -/
def State.draw (s : State) : Byte := s.randByte.getD (Config.freeRandByte s.draws)

/-- The port after a draw: the byte is used up, and the next draw is another one. -/
def State.afterDraw (s : State) : State := { s with randByte := none, draws := s.draws + 1 }

/-! ### Faults and diagnostics -/

/-- The code of a cause (60_exceptions.md R223). -/
def Fault.code : Fault → Nat
  | .fetchOutOfRange => 1
  | .stackOverflow => 2
  | .stackUnderflow => 3
  | .memoryOutOfRange => 4
  | .drawOffScreen => 5
  | .keyIndexOutOfRange => 6

/-- Set the fault record, and nothing else (60_exceptions.md R221). -/
def State.withFault (s : State) (cause : Fault) (opcode : Option Word) (info : Nat) : State :=
  { s with fault := some { cause := cause, pc := s.pc, opcode := opcode, info := info } }

/-- `raise F(info)` in an instruction's rule: the record holds the word fetched, and no other write of the
instruction is made (60_exceptions.md R221, 00_scope.md R14). There is no handler and no return (R226). -/
def raise (cause : Fault) (info : Nat) (s : State) : Result := .next (s.withFault cause (some s.opcode) info)

/-- `emit Unknown(opcode, pc)` (40_cycle.md R96, 60_exceptions.md R228). -/
def State.emitUnknown (s : State) : State := { s with diag := some { opcode := s.opcode, pc := s.pc } }

/-! ### The phases of a step -/

/-- The step's output before any instruction has run: "Every other step outputs `diag = none`" (R228). -/
def State.clearDiag (s : State) : State := { s with diag := none }

/-- Both bytes of the fetch lie in memory: not `pc + 1 > 0xFFF` (40_cycle.md R91). -/
def State.canFetch (s : State) : Bool := decide (s.pc.toNat + 1 < Config.memSize)

/-- `Fetch(pc)`: the two bytes at `pc` and `pc + 1`, big-endian, or none where they leave memory (R91). -/
def State.fetch (s : State) : Option (List Byte) :=
  if s.canFetch then some [s.readByte s.pc.toNat, s.readByte (s.pc.toNat + 1)] else none

/-- A fetch that faults: the record holds no word, and the latch is unchanged (R91). -/
def State.fetchFault (s : State) : State := s.clearDiag.withFault .fetchOutOfRange none s.pc.toNat

/-- The word of the fetched bytes goes to the latch (R90, 10_state.md R30). -/
def State.latch (s : State) (bytes : List Byte) : State :=
  { s.clearDiag with opcode := match bytes with
      | hi :: lo :: _ => wordOfBytes hi lo
      | _ => s.opcode }

/-- A timer counts down by one, never below 0 (60_exceptions.md R230). -/
def tickByte (b : Byte) : Byte := if b = 0#8 then 0#8 else b - 1#8

/-- `timer_tick()` (60_exceptions.md R230). -/
def State.timerTick (s : State) : State := { s with dt := tickByte s.dt, st := tickByte s.st }

/-- The end of a step: the tick, which a step that has faulted skips (40_cycle.md R90, 60_exceptions.md R230). -/
def State.finish (s : State) : State := if s.fault.isSome then s else s.timerTick

/-- `finish` of a meaning's answer. -/
def finishResult : Result → Result
  | .next t => .next t.finish
  | .fault r => .fault r
  | .refused r => .refused r

end Sys2Proof.Machine
end

