-- ==== Sys2Proof/Machine/Flags.lean ====
section
/-! DEFINITION. Every flag computation of the machine: the values written to VF (10_state.md R22). -/

namespace Sys2Proof.Machine

/-- 8XY4: "`V[0xF]=sum>255`", the carry out of bit 7 (42_load_alu.md R140). -/
def carryFlag (a b : Byte) : Byte := boolByte (decide (a.toNat + b.toNat > 255))

/-- 8XY5 and 8XY7: strictly greater (R141, R143). -/
def greaterFlag (a b : Byte) : Byte := boolByte (decide (a.toNat > b.toNat))

/-- 8XY6: the bit shifted out, bit 0 (R142). -/
def shrFlag (a : Byte) : Byte := a &&& 1#8

/-- 8XYE: the bit shifted out, bit 7 (R144). -/
def shlFlag (a : Byte) : Byte := (a >>> 7) &&& 1#8

/-- FX1E: the 16-bit result exceeds 0xFFF (45_index_memory.md R201, D11). -/
def indexFlag (i : Word) : Byte := boolByte (decide (i.toNat > 0xFFF))

/-- DXYN: the collision (43_display.md R162). -/
def collisionFlag (collide : Bool) : Byte := boolByte collide

end Sys2Proof.Machine
end

