-- ==== Sys2Proof/Machine/Operands.lean ====
section
/-! DEFINITION. The operand forms: the memory range `mem[I .. I+n-1]` and its check, the sprite at `I`, the key index,
the scan of the keypad, the digits of a byte. -/

namespace Sys2Proof.Machine

/-! ### The memory range at `I` -/

/-- The range check of 20_memory.md R52 on the `n` addresses from `base` on, in ascending order: the lowest one above
0xFFF, if there is one. Addresses are exact natural numbers (00_scope.md R12). -/
def firstOutOfRange (base : Nat) : Nat → Option Nat
  | 0 => none
  | n + 1 => (firstOutOfRange base n).or (if base + n > 0xFFF then some (base + n) else none)

/-! ### The sprite of DXYN -/

/-- A pixel of the screen's plane: (column, row), exact numbers. -/
abbrev Pixel := Nat × Nat

/-- The set bits of one sprite byte at column `x0`, row `y`, for the column offsets below `n`, in ascending order:
pixel c of a row byte b is `b[7 - c]` (43_display.md R160). -/
def rowPixels (b : Byte) (x0 y : Nat) : Nat → List Pixel
  | 0 => []
  | n + 1 => rowPixels b x0 y n ++ if b.getLsbD (7 - n) then [(x0 + n, y)] else []

/-- The set pixels of the `n` rows at `I`, drawn at (x0, y0), in row-major ascending order (43_display.md R162). -/
def State.spritePixels (s : State) (x0 y0 : Nat) : Nat → List Pixel
  | 0 => []
  | n + 1 => s.spritePixels x0 y0 n ++ rowPixels (s.readByte (s.i.toNat + n)) x0 (y0 + n) 8

/-- Row `r`, column offset `c` of the sprite at `I` is a set bit (43_display.md R160: pixel c of a row byte is its
bit 7 - c). -/
def State.spriteBit (s : State) (r c : Nat) : Prop := (s.readByte (s.i.toNat + r)).getLsbD (7 - c) = true

/-- The first pixel, in the list's order, that is off the screen (43_display.md R162). -/
def firstOffScreen : List Pixel → Option Pixel
  | [] => none
  | p :: rest => if onScreen p then firstOffScreen rest else some p

/-- The `info` of DrawOffScreen: `x + 512*y` (60_exceptions.md R223). -/
def offScreenInfo (p : Pixel) : Nat := p.1 + 512 * p.2

/-- The write phase of a draw over a list of pixels: each toggles its cell, and `collide` is set if one was on
(43_display.md R162). -/
def drawPixels : List Pixel → Framebuffer × Bool → Framebuffer × Bool
  | [], r => r
  | (x, y) :: rest, (fb, collide) =>
    drawPixels rest (Framebuffer.toggle fb x y, if Framebuffer.cell fb x y then true else collide)

/-! ### Keys -/

/-- `Key[k]` of an index below 16 (10_state.md R35). -/
def State.key (s : State) (k : Nat) : Bool := s.keys[k]?.getD false

/-- FX0A's ascending scan of the keys below `n`: the last pressed one (44_keypad_timer.md R183, D12). -/
def State.lastPressed (s : State) : Nat → Option Nat
  | 0 => none
  | n + 1 => if s.key n then some n else s.lastPressed n

/-! ### Decimal digits -/

/-- `v / 100` (45_index_memory.md R203). -/
def hundreds (v : Byte) : Byte := BitVec.ofNat 8 (v.toNat / 100)

/-- `(v / 10) % 10` (R203). -/
def tens (v : Byte) : Byte := BitVec.ofNat 8 (v.toNat / 10 % 10)

/-- `v % 10` (R203). -/
def units (v : Byte) : Byte := BitVec.ofNat 8 (v.toNat % 10)

/-! ### The transfers of FX55 and FX65 -/

/-- The register with a number, which these loops keep below 16. -/
def regAt (k : Nat) : Reg := Fin.ofNat 16 k

/-- The store loop of FX55 over the registers below `n`, ascending: `MemWrite(I, 1, V[k]); I <- I + 1`
(45_index_memory.md R204). -/
def State.storeRegs (s : State) : Nat → State
  | 0 => s
  | n + 1 =>
    let t := s.storeRegs n
    (t.writeByte t.i.toNat (t.readV (regAt n))).setI (t.i + 1#16)

/-- The load loop of FX65 over the registers below `n`, ascending: `V[k] <- MemRead(I, 1); I <- I + 1`
(45_index_memory.md R205). -/
def State.loadRegs (s : State) : Nat → State
  | 0 => s
  | n + 1 =>
    let t := s.loadRegs n
    (t.writeV (regAt n) (t.readByte t.i.toNat)).setI (t.i + 1#16)

end Sys2Proof.Machine
end

