-- ==== Sys2Proof/Machine/ControlFlow.lean ====
section
/-! DEFINITION. Control flow (41_control_flow.md): return, jumps, call and the four register and immediate skips. -/

namespace Sys2Proof.Machine

/-- RET (R110): pop, and go to the saved address plus 2; an empty stack faults. Bits 11:8 have no effect (R75). -/
def execRet (_ign : Nibble) (s : State) : Result :=
  if s.sp.val = 0 then raise .stackUnderflow 0 s
  else .next (s.popSlot.setPc (s.topOfStack + 2#16))

/-- JP NNN (R111): "no increment — the jump target is absolute". -/
def execJp (nnn : Addr12) (s : State) : Result := .next (s.setPc (zextAddr nnn))

/-- CALL NNN (R112): push the address of this CALL and jump; a full stack faults. -/
def execCall (nnn : Addr12) (s : State) : Result :=
  if h : s.sp.val < 16 then .next ((s.pushPc h).setPc (zextAddr nnn))
  else raise .stackOverflow 16 s

/-- SE VX, NN (R113). -/
def execSeImm (x : Reg) (nn : Byte) (s : State) : Result := .next (s.skipIf (s.readV x == nn))

/-- SNE VX, NN (R114). -/
def execSneImm (x : Reg) (nn : Byte) (s : State) : Result := .next (s.skipIf (s.readV x != nn))

/-- SE VX, VY (R115). Bits 3:0 have no effect (R79). -/
def execSeReg (x y : Reg) (_ign : Nibble) (s : State) : Result := .next (s.skipIf (s.readV x == s.readV y))

/-- SNE VX, VY (R116). Bits 3:0 have no effect (R79). -/
def execSneReg (x y : Reg) (_ign : Nibble) (s : State) : Result := .next (s.skipIf (s.readV x != s.readV y))

/-- JP V0, NNN (R117): the sum is 16 bits wide, not reduced to 12. -/
def execJpV0 (nnn : Addr12) (s : State) : Result := .next (s.setPc (zextAddr nnn + zextByte (s.readV 0)))

end Sys2Proof.Machine
end

