-- ==== Sys2Proof/Machine/Display.lean ====
section
/-! DEFINITION. Display (43_display.md): clear, and the XOR draw with collision detection. -/

namespace Sys2Proof.Machine

/-- CLS (R161): `redraw` is set even when nothing changes (90_conflicts.md C1). Bits 11:8 have no effect (R75). -/
def execCls (_ign : Nibble) (s : State) : Result := .next (s.showFb Framebuffer.clear).advance

/-- The write phase of DRW over its pixels: the cells, `redraw`, VF last, `pc` (R162, D13). -/
def State.drawSprite (s : State) (pixels : List Pixel) : State :=
  let r := drawPixels pixels (s.fb, false)
  ((s.showFb r.1).writeV VF (collisionFlag r.2)).advance

/-- DRW VX, VY, N (R162): the coordinates are sampled first; then every memory address is checked, then every set
bit's position; then the write phase. -/
def execDrw (x y : Reg) (n : Nibble) (s : State) : Result :=
  match firstOutOfRange s.i.toNat n.toNat with
  | some a => raise .memoryOutOfRange a s
  | none =>
    let pixels := s.spritePixels (s.readV x).toNat (s.readV y).toNat n.toNat
    match firstOffScreen pixels with
    | some p => raise .drawOffScreen (offScreenInfo p) s
    | none => .next (s.drawSprite pixels)

end Sys2Proof.Machine
end

