-- ==== Sys2Proof/Machine/IndexMemory.lean ====
section
/-! DEFINITION. The index register and memory transfer (45_index_memory.md). Every address is checked before any
write (20_memory.md R52). -/

namespace Sys2Proof.Machine

/-- LD I, NNN (R200). -/
def execLdI (nnn : Addr12) (s : State) : Result := .next (s.setI (zextAddr nnn)).advance

/-- ADD I, VX (R201): the sum wraps at 16 bits, and VF is computed from the value just written (D11). -/
def execAddI (x : Reg) (s : State) : Result :=
  let t := s.setI (s.i + zextByte (s.readV x))
  .next (t.writeV VF (indexFlag t.i)).advance

/-- LD F, VX (R202): `V[X]` is not masked to 4 bits. -/
def execLdF (x : Reg) (s : State) : Result := .next (s.setI (zextByte (s.readV x) * 5#16)).advance

/-- The three stores of LD B (R203), at the addresses from `base` on. -/
def State.storeDigits (s : State) (base : Nat) (v : Byte) : State :=
  ((s.writeByte base (hundreds v)).writeByte (base + 1) (tens v)).writeByte (base + 2) (units v)

/-- LD B, VX (R203). -/
def execLdB (x : Reg) (s : State) : Result :=
  match firstOutOfRange s.i.toNat 3 with
  | some a => raise .memoryOutOfRange a s
  | none => .next (s.storeDigits s.i.toNat (s.readV x)).advance

/-- LD [I], VX (R204). -/
def execLdMemV (x : Reg) (s : State) : Result :=
  match firstOutOfRange s.i.toNat (x.val + 1) with
  | some a => raise .memoryOutOfRange a s
  | none => .next (s.storeRegs (x.val + 1)).advance

/-- LD VX, [I] (R205). -/
def execLdVMem (x : Reg) (s : State) : Result :=
  match firstOutOfRange s.i.toNat (x.val + 1) with
  | some a => raise .memoryOutOfRange a s
  | none => .next (s.loadRegs (x.val + 1)).advance

end Sys2Proof.Machine
end

