-- ==== Sys2Proof/Machine/KeypadTimer.lean ====
section
/-! DEFINITION. Keypad skips, key wait and timer access (44_keypad_timer.md). The tick that follows in the same step
is the step's own (40_cycle.md R90). -/

namespace Sys2Proof.Machine

/-- SKP VX (R180): a key index above 15 faults. -/
def execSkp (x : Reg) (s : State) : Result :=
  let k := (s.readV x).toNat
  if k > 0xF then raise .keyIndexOutOfRange k s else .next (s.skipIf (s.key k))

/-- SKNP VX (R181): a key index above 15 faults. -/
def execSknp (x : Reg) (s : State) : Result :=
  let k := (s.readV x).toNat
  if k > 0xF then raise .keyIndexOutOfRange k s else .next (s.skipIf (!s.key k))

/-- LD VX, DT (R182): the timer before this step's tick. -/
def execLdVDt (x : Reg) (s : State) : Result := .next (s.writeV x s.dt).advance

/-- LD VX, K (R183): the highest pressed key; with none pressed, nothing changes and `pc` stays. -/
def execLdVK (x : Reg) (s : State) : Result :=
  match s.lastPressed 16 with
  | some k => .next (s.writeV x (BitVec.ofNat 8 k)).advance
  | none => .next s

/-- LD DT, VX (R184). -/
def execLdDtV (x : Reg) (s : State) : Result := .next (s.setDt (s.readV x)).advance

/-- LD ST, VX (R185). -/
def execLdStV (x : Reg) (s : State) : Result := .next (s.setSt (s.readV x)).advance

end Sys2Proof.Machine
end

