-- ==== Sys2Proof/Machine/LoadAlu.lean ====
section
/-! DEFINITION. Loads of immediates, the ALU group and random (42_load_alu.md). Statements run in order, and each one
sees the writes before it (00_scope.md R11, D10): where X or Y is 0xF, the result is computed from the new VF in 8XY5,
8XY6, 8XY7 and 8XYE, and overwrites the flag wherever X is 0xF. -/

namespace Sys2Proof.Machine

/-- LD VX, NN (R130). -/
def execLdImm (x : Reg) (nn : Byte) (s : State) : Result := .next (s.writeV x nn).advance

/-- ADD VX, NN (R131): no flag. -/
def execAddImm (x : Reg) (nn : Byte) (s : State) : Result := .next (s.writeV x (s.readV x + nn)).advance

/-- LD VX, VY (R132). -/
def execLdReg (x y : Reg) (s : State) : Result := .next (s.writeV x (s.readV y)).advance

/-- OR VX, VY (R133): VF is not reset. -/
def execOrReg (x y : Reg) (s : State) : Result := .next (s.writeV x (s.readV x ||| s.readV y)).advance

/-- AND VX, VY (R134). -/
def execAndReg (x y : Reg) (s : State) : Result := .next (s.writeV x (s.readV x &&& s.readV y)).advance

/-- XOR VX, VY (R135). -/
def execXorReg (x y : Reg) (s : State) : Result := .next (s.writeV x (s.readV x ^^^ s.readV y)).advance

/-- ADD VX, VY (R140): the sum is taken first, then VF, then `V[X]`. -/
def execAddReg (x y : Reg) (s : State) : Result :=
  let sum := s.readV x + s.readV y
  .next ((s.writeV VF (carryFlag (s.readV x) (s.readV y))).writeV x sum).advance

/-- SUB VX, VY (R141): VF first, then the difference of the registers as they are then. -/
def execSubReg (x y : Reg) (s : State) : Result :=
  let t := s.writeV VF (greaterFlag (s.readV x) (s.readV y))
  .next (t.writeV x (t.readV x - t.readV y)).advance

/-- SHR VX (R142): VF first, then the shift of `V[X]` as it is then. Y is not read. -/
def execShr (x _y : Reg) (s : State) : Result :=
  let t := s.writeV VF (shrFlag (s.readV x))
  .next (t.writeV x (t.readV x >>> 1)).advance

/-- SUBN VX, VY (R143): VF first, then the difference of the registers as they are then. -/
def execSubnReg (x y : Reg) (s : State) : Result :=
  let t := s.writeV VF (greaterFlag (s.readV y) (s.readV x))
  .next (t.writeV x (t.readV y - t.readV x)).advance

/-- SHL VX (R144): VF first, then the shift of `V[X]` as it is then. Y is not read. -/
def execShl (x _y : Reg) (s : State) : Result :=
  let t := s.writeV VF (shlFlag (s.readV x))
  .next (t.writeV x (t.readV x <<< 1)).advance

/-- RND VX, NN (R145): one draw, a free byte. -/
def execRnd (x : Reg) (nn : Byte) (s : State) : Result := .next (s.afterDraw.writeV x (s.draw &&& nn)).advance

end Sys2Proof.Machine
end

