-- ==== Sys2Proof/Machine/Unknown.lean ====
section
/-! DEFINITION. The unknown-opcode arm (40_cycle.md R96), for each of the four groups it has words in
(30_encoding.md R80). The word it reports is the latch, which holds the word being executed (10_state.md R30). -/

namespace Sys2Proof.Machine

/-- `emit Unknown(opcode, pc); pc+=2` (R96). -/
def State.unknownOpcode (s : State) : State := s.emitUnknown.advance

/-- UNKNOWN in group 0 (R96). -/
def execUnknown0 (_x : Nibble) (_nn : Byte) (s : State) : Result := .next s.unknownOpcode

/-- UNKNOWN in group 8 (R96). -/
def execUnknown8 (_x _y _k : Nibble) (s : State) : Result := .next s.unknownOpcode

/-- UNKNOWN in group E (R96, D19). -/
def execUnknownE (_x : Nibble) (_nn : Byte) (s : State) : Result := .next s.unknownOpcode

/-- UNKNOWN in group F (R96). -/
def execUnknownF (_x : Nibble) (_nn : Byte) (s : State) : Result := .next s.unknownOpcode

end Sys2Proof.Machine
end

