-- ==== Sys2Proof/Machine/Dispatch.lean ====
section
/-! DEFINITION. The dispatch of the execute phase: one arm per instruction (40_cycle.md R93). -/

namespace Sys2Proof.Machine

/-- The execute phase of one instruction (40_cycle.md R90, R93). -/
def exec (i : Instr) (s : State) : Host.Outcome State Fault Refusal :=
  match i with
  | .cls ign => Sys2Proof.Machine.execCls ign s
  | .ret ign => Sys2Proof.Machine.execRet ign s
  | .jp nnn => Sys2Proof.Machine.execJp nnn s
  | .call nnn => Sys2Proof.Machine.execCall nnn s
  | .seImm x nn => Sys2Proof.Machine.execSeImm x nn s
  | .sneImm x nn => Sys2Proof.Machine.execSneImm x nn s
  | .seReg x y ign => Sys2Proof.Machine.execSeReg x y ign s
  | .ldImm x nn => Sys2Proof.Machine.execLdImm x nn s
  | .addImm x nn => Sys2Proof.Machine.execAddImm x nn s
  | .ldReg x y => Sys2Proof.Machine.execLdReg x y s
  | .orReg x y => Sys2Proof.Machine.execOrReg x y s
  | .andReg x y => Sys2Proof.Machine.execAndReg x y s
  | .xorReg x y => Sys2Proof.Machine.execXorReg x y s
  | .addReg x y => Sys2Proof.Machine.execAddReg x y s
  | .subReg x y => Sys2Proof.Machine.execSubReg x y s
  | .shr x y => Sys2Proof.Machine.execShr x y s
  | .subnReg x y => Sys2Proof.Machine.execSubnReg x y s
  | .shl x y => Sys2Proof.Machine.execShl x y s
  | .sneReg x y ign => Sys2Proof.Machine.execSneReg x y ign s
  | .ldI nnn => Sys2Proof.Machine.execLdI nnn s
  | .jpV0 nnn => Sys2Proof.Machine.execJpV0 nnn s
  | .rnd x nn => Sys2Proof.Machine.execRnd x nn s
  | .drw x y n => Sys2Proof.Machine.execDrw x y n s
  | .skp x => Sys2Proof.Machine.execSkp x s
  | .sknp x => Sys2Proof.Machine.execSknp x s
  | .ldVDt x => Sys2Proof.Machine.execLdVDt x s
  | .ldVK x => Sys2Proof.Machine.execLdVK x s
  | .ldDtV x => Sys2Proof.Machine.execLdDtV x s
  | .ldStV x => Sys2Proof.Machine.execLdStV x s
  | .addI x => Sys2Proof.Machine.execAddI x s
  | .ldF x => Sys2Proof.Machine.execLdF x s
  | .ldB x => Sys2Proof.Machine.execLdB x s
  | .ldMemV x => Sys2Proof.Machine.execLdMemV x s
  | .ldVMem x => Sys2Proof.Machine.execLdVMem x s
  | .unknown0 x nn => Sys2Proof.Machine.execUnknown0 x nn s
  | .unknown8 x y k => Sys2Proof.Machine.execUnknown8 x y k s
  | .unknownE x nn => Sys2Proof.Machine.execUnknownE x nn s
  | .unknownF x nn => Sys2Proof.Machine.execUnknownF x nn s

end Sys2Proof.Machine
end

