-- ==== Sys2Proof/Machine/Step.lean ====
section
/-! DEFINITION. One step of the core (40_cycle.md R90): the Faulted check, the fetch, the latch, the decode, the
execute phase and the timer tick. -/

namespace Sys2Proof.Machine

/-- `step()` (40_cycle.md R90). A Faulted core does nothing and emits no diagnostic (R99, R222); a fetch that leaves
memory faults (R91); else the fetched word goes to the latch, its instruction runs, and the timers tick unless it
faulted. A successful fetch answers two bytes, which the decoder never rejects (30_encoding.md R82), so the last arm
is not reached. -/
def step (s : State) : Host.Outcome State Fault Refusal :=
  match s.fault with
  | some _ => .next s.clearDiag
  | none =>
    match s.fetch with
    | none => .next s.fetchFault
    | some bytes =>
      match decode bytes with
      | .ok i _ => finishResult (exec i (s.latch bytes))
      | .rejected _ => .next s.fetchFault

/-- `s` with an instruction of the opcode table where the next step fetches: its word's two bytes at `pc` and
`pc + 1`. This stands for the host's `load` (notes/assumptions/8.md). Where no step from `s` would fetch, because the
core is Faulted or `pc` is past 0xFFE, the fault is cleared and `pc` is the reset one. -/
def State.withFetchWord (s : State) (nbits w : Nat) : State :=
  let t := { s with fault := none, pc := if s.canFetch then s.pc else 0x200#16 }
  (t.writeByte t.pc.toNat (hiByte (tableWord nbits w))).writeByte (t.pc.toNat + 1) (loByte (tableWord nbits w))

end Sys2Proof.Machine
end

