-- ==== Sys2Proof/Machine/Boundary.lean ====
section
/-! DEFINITION. The core's side of its boundary with the host (60_exceptions.md R240 to R247): reset and boot
(70_reset_and_hazards.md R260 to R263), the host's actions between steps, and a run as a list of events. -/

namespace Sys2Proof.Machine

/-- `init` (70_reset_and_hazards.md R260): every element of 10_state.md R20 at its value of R40, FONT installed again.
The input port `rand_byte` and the count of draws are not core state, and are kept (notes/assumptions/4.md). -/
def State.init (s : State) : State :=
  { State.initial s.mem.font with randByte := s.randByte, draws := s.draws }

/-- The image copy from an address on (70_reset_and_hazards.md R261). -/
def State.storeImage (s : State) : Nat → List Byte → State
  | _, [] => s
  | a, b :: rest => (s.writeByte a b).storeImage (a + 1) rest

/-- `load(bytes)` (70_reset_and_hazards.md R261): the image at 0x200 on, no register changed; an image of more than
3584 bytes has no meaning (D29). -/
def load (image : List Byte) (s : State) : Result :=
  if image.length ≤ Config.progMax then .next (s.storeImage Config.progBase image)
  else .refused (.imageTooLong image.length)

/-- What the host may do between two steps, and it does nothing else (60_exceptions.md R247). -/
inductive HostAction where
  /-- `init`, then `load` of an image: "reset means re-running the init/load sequence" (R260 to R263). -/
  | boot (image : List Byte)
  /-- The input source sets or clears a key (R242). -/
  | setKey (k : Fin 16) (pressed : Bool)
  /-- `redraw_ack`: the presentation clears `redraw` (R243). -/
  | redrawAck
  /-- The host drives `rand_byte` (R244). -/
  | driveRand (b : Byte)
deriving DecidableEq, Repr

/-- One host action. A Faulted core takes them too; only `boot` clears the fault (60_exceptions.md R222). -/
def hostAct : HostAction → State → Result
  | .boot image, s => load image s.init
  | .setKey k pressed, s => .next { s with keys := s.keys.set k pressed }
  | .redrawAck, s => .next { s with redraw := false }
  | .driveRand b, s => .next { s with randByte := some b }

/-- A step of the core, or a host action between steps (40_cycle.md R98, 20_memory.md R60). -/
inductive Event where
  | step
  | host (a : HostAction)
deriving DecidableEq, Repr

/-- One event. -/
def event : Event → State → Result
  | .step, s => step s
  | .host a, s => hostAct a s

/-- A run: the events in order, up to the first refusal (70_reset_and_hazards.md R265). -/
def runEvents : List Event → State → Result
  | [], s => .next s
  | e :: rest, s =>
    match event e s with
    | .next t => runEvents rest t
    | .fault r => .fault r
    | .refused r => .refused r

end Sys2Proof.Machine
end

