-- ==== Sys2Proof/Safety.lean ====
section
/-! DEFINITION. What counts as a safe state and a safe run, and the invariant of the core. -/

namespace Sys2Proof.Machine

/-- "While `fault != none` the core is Faulted" (60_exceptions.md R222). -/
def State.faulted (s : State) : Bool := s.fault.isSome

/-- A run that is no successful end is one whose state is Faulted (70_reset_and_hazards.md R265): a safe run answers a
state that is not. -/
def SafeRun (events : List Event) (s : State) : Prop := ∃ t, runEvents events s = .next t ∧ t.fault = none

/-- The next step fetches an instruction: the core is not Faulted and `pc` is at most 0xFFE (40_cycle.md R91, R99). -/
def State.running (s : State) : Prop := s.fault = none ∧ s.pc.toNat ≤ 0xFFE

/-- The word the next step fetches from a running state (40_cycle.md R91). -/
def State.nextWord (s : State) : Word := wordOfBytes (s.readByte s.pc.toNat) (s.readByte (s.pc.toNat + 1))

/-- The instruction the next step runs from a running state. -/
def State.nextInstr (s : State) : Instr := decodeWord s.nextWord

/-- The state in which the execute phase of a step from a running state begins: the fetched word is in the latch
(40_cycle.md R90, 10_state.md R30), and no diagnostic has been output (60_exceptions.md R228). -/
def State.fetched (s : State) : State := { s with opcode := s.nextWord, diag := none }

/-! ### What an instruction leaves unchanged -/

/-- The parts of the state other than the general registers (10_state.md R20), and the ports' fields. -/
inductive Part where
  | index | pc | stackPointer | stackSlots | delayTimer | soundTimer | opcode | redraw | memory | framebuffer
  | keys | fault | diag | random
deriving DecidableEq, Repr

/-- A part is the same in two states; for memory: every byte reads as before. -/
def Part.unchanged (s t : State) : Part → Prop
  | .index => t.i = s.i
  | .pc => t.pc = s.pc
  | .stackPointer => t.sp = s.sp
  | .stackSlots => t.stack = s.stack
  | .delayTimer => t.dt = s.dt
  | .soundTimer => t.st = s.st
  | .opcode => t.opcode = s.opcode
  | .redraw => t.redraw = s.redraw
  | .memory => ∀ a, t.readByte a = s.readByte a
  | .framebuffer => t.fb = s.fb
  | .keys => t.keys = s.keys
  | .fault => t.fault = s.fault
  | .diag => t.diag = s.diag
  | .random => t.randByte = s.randByte ∧ t.draws = s.draws

/-- Everything but the parts and the registers named is unchanged from `s` to `t`. -/
structure Frame (parts : List Part) (regs : List Reg) (s t : State) : Prop where
  parts : ∀ p, p ∉ parts → p.unchanged s t
  regs : ∀ r, r ∉ regs → t.readV r = s.readV r

/-- The registers an instruction may write (10_state.md R22, R23). -/
def mayWrite : Instr → Reg → Bool
  | .ldImm x _, r | .addImm x _, r | .ldReg x _, r | .orReg x _, r | .andReg x _, r | .xorReg x _, r
  | .rnd x _, r | .ldVDt x, r | .ldVK x, r => r == x
  | .addReg x _, r | .subReg x _, r | .shr x _, r | .subnReg x _, r | .shl x _, r => r == x || r == VF
  | .drw _ _ _, r | .addI _, r => r == VF
  | .ldVMem x, r => decide (r ≤ x)
  | .cls _, _ | .ret _, _ | .jp _, _ | .call _, _ | .seImm _ _, _ | .sneImm _ _, _ | .seReg _ _ _, _
  | .sneReg _ _ _, _ | .ldI _, _ | .jpV0 _, _ | .skp _, _ | .sknp _, _ | .ldDtV _, _ | .ldStV _, _ | .ldF _, _
  | .ldB _, _ | .ldMemV _, _ | .unknown0 _ _, _ | .unknown8 _ _ _, _ | .unknownE _ _, _ | .unknownF _ _, _ => false

/-! ### When a step faults -/

/-- The running state's instruction accesses the `n` bytes of memory from `I` on (20_memory.md R54). -/
def State.accesses (s : State) (n : Nat) : Prop :=
  (∃ x y k, s.nextInstr = .drw x y k ∧ n = k.toNat) ∨ (∃ x, s.nextInstr = .ldB x ∧ n = 3) ∨
    (∃ x, s.nextInstr = .ldMemV x ∧ n = x.val + 1) ∨ (∃ x, s.nextInstr = .ldVMem x ∧ n = x.val + 1)

/-- Set bit (r, c) of the `n`-row sprite at `I`, drawn at (x0, y0), falls off the screen, and no set bit before it in
row-major order does (43_display.md R162). -/
def State.firstBitOff (s : State) (x0 y0 n r c : Nat) : Prop :=
  r < n ∧ c < 8 ∧ s.spriteBit r c ∧ (63 < x0 + c ∨ 31 < y0 + r) ∧
    ∀ r' c', r' < n → c' < 8 → s.spriteBit r' c' → (r' < r ∨ (r' = r ∧ c' < c)) → x0 + c' ≤ 63 ∧ y0 + r' ≤ 31

/-- The condition under which a step from a state that is not Faulted raises a cause, and the `info` it records: the
table of 60_exceptions.md R223. -/
def State.faultCondition (s : State) : Fault → Nat → Prop
  | .fetchOutOfRange, info => s.pc.toNat + 1 > 0xFFF ∧ info = s.pc.toNat
  | .stackOverflow, info => s.running ∧ (∃ nnn, s.nextInstr = .call nnn) ∧ s.sp = 16 ∧ info = 16
  | .stackUnderflow, info => s.running ∧ (∃ g, s.nextInstr = .ret g) ∧ s.sp = 0 ∧ info = 0
  | .memoryOutOfRange, info =>
    s.running ∧ ∃ n k, s.accesses n ∧ k < n ∧ info = s.i.toNat + k ∧ info > 0xFFF ∧
      ∀ j, j < k → s.i.toNat + j ≤ 0xFFF
  | .drawOffScreen, info =>
    s.running ∧ ∃ x y n r c, s.nextInstr = .drw x y n ∧
      s.firstBitOff (s.readV x).toNat (s.readV y).toNat n.toNat r c ∧
      info = ((s.readV x).toNat + c) + 512 * ((s.readV y).toNat + r)
  | .keyIndexOutOfRange, info =>
    s.running ∧ ∃ x, (s.nextInstr = .skp x ∨ s.nextInstr = .sknp x) ∧ (s.readV x).toNat > 15 ∧
      info = (s.readV x).toNat

/-! ### The invariant -/

/-- What a fault record says of the state it is in: its `pc` is the core's; it holds no word for a fetch fault and
the latch for every other; and its `info` is of the form 60_exceptions.md R223 gives its cause. -/
def FaultRecord.fits (r : FaultRecord) (s : State) : Prop :=
  r.pc = s.pc ∧
  match r.cause with
  | .fetchOutOfRange => r.opcode = none ∧ r.info = s.pc.toNat ∧ 0xFFE < s.pc.toNat
  | .stackOverflow => r.opcode = some s.opcode ∧ r.info = 16 ∧ s.sp = 16
  | .stackUnderflow => r.opcode = some s.opcode ∧ r.info = 0 ∧ s.sp = 0
  | .memoryOutOfRange => r.opcode = some s.opcode ∧ 0xFFF < r.info ∧ s.i.toNat ≤ r.info ∧ r.info ≤ s.i.toNat + 15
  | .drawOffScreen => r.opcode = some s.opcode ∧ (63 < r.info % 512 ∨ 31 < r.info / 512)
  | .keyIndexOutOfRange => r.opcode = some s.opcode ∧ 15 < r.info ∧ r.info < 256

/-- The invariant of the core: the memory is in canonical form; `pc` never passes 0x10FE, the highest target of BNNN
(41_control_flow.md R117), and no saved address passes 0xFFE, the last one that fetches (R110), so that no `pc` sum is
ever reduced (40_cycle.md R94); a fault record fits the state; a diagnostic reports the latch, and the latch is then an
unknown opcode. -/
structure State.Inv (s : State) : Prop where
  memCanonical : s.mem.wf = true
  pcBound : s.pc.toNat ≤ 0x10FE
  savedBound : ∀ k : Fin 16, s.stack[k].toNat ≤ 0xFFE
  faultFits : ∀ r, s.fault = some r → r.fits s
  diagFits : ∀ d, s.diag = some d → d.opcode = s.opcode ∧ (decodeWord d.opcode).isUnknown = true

end Sys2Proof.Machine
end

