-- ==== Sys2Proof/Certificates/Slice0/Obligations.lean ====
section
/-! DEFINITION. The statements for the provers: what the numbered rules of spec/ say an instruction, a step, reset or a
run does. Each docstring names the rules it formalises. -/

open Sys2Proof Sys2Proof.Machine

/-! ### Encoding -/

/-- R70, R71, R73, R78, R80: the decoder reads the encoding of every well-formed instruction back, ignored bits
included. Which bits are ignored rests on D17 and D18 (log entry 12), and the four residual constructors are the
model's (log entry 17). -/
def Obligations.DecodeOfEncodeIsTheInstruction : Prop :=
  ∀ i : Instr, i.wellFormed = true → decode (encodeBytes i) = .ok i []

/-- R81, R82: every word is read as a well-formed instruction, one that encodes to that very word. The encoder is the
model's own (log entry 17). -/
def Obligations.EncodeOfDecodeIsTheWord : Prop :=
  ∀ w : Word, (decodeWord w).wellFormed = true ∧ encode (decodeWord w) = w

/-- R78: the rows of the opcode map that a word matches are the one row of the instruction the decoder reads, or none,
and then the word is an unknown opcode. The masks of rows 1, 2, 7 and 19 rest on the spec's own D17 and D18 (log entry
12). -/
def Obligations.DecoderFollowsTheOpcodeMap : Prop :=
  ∀ w : Word, (opcodeRows.filter (·.hits w)).map (·.number) = (decodeWord w).rowNumber.toList ∧
    ((∀ row ∈ opcodeRows, row.hits w = false) ↔ (decodeWord w).isUnknown = true)

/-- R70, R73, R75, R79: words written out from the formats, one of each family, read as the instruction they stand for
(a check of fixed words). Rests on D17 and D18 (log entry 12) where a word has ignored bits set. -/
def Obligations.SampleWordsDecode : Prop :=
  decode [0x0A#8, 0xE0#8] = .ok (.cls 0xA#4) [] ∧ decode [0x2A#8, 0xBC#8] = .ok (.call 0xABC#12) [] ∧
    decode [0x51#8, 0x27#8] = .ok (.seReg 1 2 7#4) [] ∧ decode [0x81#8, 0x2E#8] = .ok (.shl 1 2) [] ∧
    decode [0xC3#8, 0x0F#8] = .ok (.rnd 3 0x0F#8) [] ∧ decode [0xD1#8, 0x25#8] = .ok (.drw 1 2 5#4) [] ∧
    decode [0xE2#8, 0xA1#8] = .ok (.sknp 2) [] ∧ decode [0xF3#8, 0x55#8] = .ok (.ldMemV 3) [] ∧
    decode [0x81#8, 0x28#8] = .ok (.unknown8 1#4 2#4 8#4) []

/-! ### The step -/

/-- R90, R91: a step of a core that is not Faulted, whose two bytes at `pc` are in memory and decode to `i`, runs `i`
from the state with the fetched word in the latch and no diagnostic, and then ticks both timers unless it has faulted.
The order of the tick is the spec's own D9 (log entry 9), and `diag` is the model's field (log entry 3). -/
def Obligations.StepRunsTheDecodedInstruction : Prop :=
  ∀ (s : State) (i : Instr), s.fault = none → s.pc.toNat ≤ 0xFFE →
    decode [s.readByte s.pc.toNat, s.readByte (s.pc.toNat + 1)] = .ok i [] →
    ∃ t, exec i { s with
          opcode := wordOfBytes (s.readByte s.pc.toNat) (s.readByte (s.pc.toNat + 1)), diag := none } = .next t ∧
      (t.fault = none → step s = .next { t with dt := tickByte t.dt, st := tickByte t.st }) ∧
      (t.fault ≠ none → step s = .next t)

/-- R91: the fetch faults when `pc + 1 > 0xFFF`; the record holds no word and the latch is unchanged. The fault is the
spec's own D4 and D33 (log entries 14, 16), as a next state (log entry 1). -/
def Obligations.FetchPastMemoryFaults : Prop :=
  ∀ s : State, s.fault = none → s.pc.toNat + 1 > 0xFFF →
    step s = .next { s with diag := none, fault := some ⟨.fetchOutOfRange, s.pc, none, s.pc.toNat⟩ }

/-- R99: a step of a Faulted core changes no state and emits no diagnostic. The Faulted state is the spec's own D2
(log entries 1, 3). -/
def Obligations.FaultedStepDoesNothing : Prop :=
  ∀ s : State, s.fault ≠ none → step s = .next { s with diag := none }

/-- R98, R82: every step of every state answers a next state, and a core that is not Faulted has then either completed
an instruction or holds the record of a fault; nothing is refused. That a fault is a next state is the model's choice
(log entry 1). -/
def Obligations.EveryStepAnswersANextState : Prop :=
  ∀ s : State, ∃ t, step s = .next t ∧ (t.fault = none → s.running)

/-- R14, R221: a faulting step writes the record and, if the fetch succeeded, the latch, and nothing else: no
register, byte, cell, slot, flag or timer. The record is the spec's own D2 (log entry 1). -/
def Obligations.FaultsArePrecise : Prop :=
  ∀ (s t : State) (r : FaultRecord), s.fault = none → step s = .next t → t.fault = some r →
    r.pc = s.pc ∧
      ((s.pc.toNat ≤ 0xFFE ∧ r.opcode = some s.nextWord ∧
          t = { s with fault := some r, opcode := s.nextWord, diag := none }) ∨
        (0xFFE < s.pc.toNat ∧ r.opcode = none ∧ t = { s with fault := some r, diag := none }))

/-- R223: the codes of the causes; a step that faults does so under the condition of the cause it records, with the
`info` of the table; and a step under any of the conditions faults. The conditions are the spec's own D3 to D8 and D32
(log entry 14). -/
def Obligations.StepFaultsExactlyUnderItsConditions : Prop :=
  [Fault.fetchOutOfRange, .stackOverflow, .stackUnderflow, .memoryOutOfRange, .drawOffScreen,
      .keyIndexOutOfRange].map Fault.code = [1, 2, 3, 4, 5, 6] ∧
    ∀ s t : State, s.fault = none → step s = .next t →
      (∀ r, t.fault = some r → s.faultCondition r.cause r.info) ∧
        ((∃ c info, s.faultCondition c info) → t.fault ≠ none)

/-- R24, R94: the next `pc` of a step that completes is +2, +4 for a skip, unchanged for FX0A alone, a jump target, or
the saved address plus 2, and no sum leaves 16 bits but the return's. The width of the sums is the spec's own D37 (log
entry 18). -/
def Obligations.NextPcIsOneOfTheFiveForms : Prop :=
  ∀ s t : State, s.running → step s = .next t → t.fault = none →
    match s.nextInstr with
    | .jp nnn | .call nnn => t.pc.toNat = nnn.toNat
    | .jpV0 nnn => t.pc.toNat = nnn.toNat + (s.readV 0).toNat
    | .ret _ => ∃ k : Fin 16, s.sp.val = k.val + 1 ∧ t.pc = s.stack[k] + 2#16
    | .seImm _ _ | .sneImm _ _ | .seReg _ _ _ | .sneReg _ _ _ | .skp _ | .sknp _ =>
      t.pc.toNat = s.pc.toNat + 2 ∨ t.pc.toNat = s.pc.toNat + 4
    | .ldVK _ => t.pc.toNat = s.pc.toNat + 2 ∨ (t.pc = s.pc ∧ ∀ k : Fin 16, s.keys[k] = false)
    | _ => t.pc.toNat = s.pc.toNat + 2

/-- R22, R23: a step leaves every register alone that its instruction is not listed as writing. R23 is the spec's own
derivation, and a fault's next state is the model's (log entry 1). -/
def Obligations.RegistersChangeOnlyByTheirWriters : Prop :=
  ∀ (s t : State) (r : Reg), s.running → step s = .next t → mayWrite s.nextInstr r = false →
    t.readV r = s.readV r

/-- R50, R57: a step changes a byte of memory only by FX33, at `I` to `I + 2`, or by FX55, at `I` to `I + X`. That the
font may be overwritten is the spec's own D22 (log entry 13). -/
def Obligations.MemoryChangesOnlyByTheStores : Prop :=
  ∀ (s t : State) (a : Nat), step s = .next t → t.readByte a ≠ s.readByte a →
    s.running ∧ s.i.toNat ≤ a ∧
      ((∃ x, s.nextInstr = .ldB x ∧ a ≤ s.i.toNat + 2) ∨ (∃ x, s.nextInstr = .ldMemV x ∧ a ≤ s.i.toNat + x.val))

/-- R31, R33: the framebuffer changes only by 00E0 and DXYN; a step sets `redraw` when one of them completes, and no
step clears it. When `redraw` is set is decided by 90_conflicts.md C1, and who clears it by D26 (log entry 5). -/
def Obligations.DisplayChangesOnlyByClearAndDraw : Prop :=
  ∀ s t : State, s.running → step s = .next t →
    let draws := (∃ g, s.nextInstr = .cls g) ∨ (∃ x y n, s.nextInstr = .drw x y n ∧ t.fault = none)
    (draws → t.redraw = true) ∧ (¬ draws → t.fb = s.fb ∧ t.redraw = s.redraw)

/-- R27, R28: `sp` and the stack slots change only by 2NNN and 00EE; 2NNN writes the one slot it pushes to, and 00EE
none. R28 is the spec's own derivation, and a fault's next state is the model's (log entry 1). -/
def Obligations.StackChangesOnlyByCallAndReturn : Prop :=
  ∀ s t : State, s.running → step s = .next t →
    match s.nextInstr with
    | .call _ => t.fault = none → t.sp.val = s.sp.val + 1 ∧ ∀ k : Fin 16, k.val ≠ s.sp.val → t.stack[k] = s.stack[k]
    | .ret _ => t.stack = s.stack ∧ (t.fault = none → t.sp.val + 1 = s.sp.val)
    | _ => t.sp = s.sp ∧ t.stack = s.stack

/-- R26: `I` changes only by ANNN, FX1E, FX29, FX55 and FX65. That writing `I` is never checked rests on D3 (log entry
14). -/
def Obligations.IndexChangesOnlyByItsWriters : Prop :=
  ∀ s t : State, step s = .next t → t.i ≠ s.i →
    s.running ∧ ((∃ a, s.nextInstr = .ldI a) ∨ ∃ x, s.nextInstr = .addI x ∨ s.nextInstr = .ldF x ∨
      s.nextInstr = .ldMemV x ∨ s.nextInstr = .ldVMem x)

/-- R35: no step writes the keypad (nor the parameter FONT, which is the model's field, log entry 2). That the keypad
changes only between steps is the spec's own D25 (log entry 5). -/
def Obligations.NoStepWritesTheKeypad : Prop :=
  ∀ s t : State, step s = .next t → t.keys = s.keys ∧ t.mem.font = s.mem.font

/-- R230: a step that completes decrements each timer that is nonzero, after the write of FX15 or FX18; a step that
faults, and a step of a Faulted core, ticks neither. The order of the tick is the spec's own D9 (log entry 9). -/
def Obligations.TimersTickOncePerCompletedStep : Prop :=
  ∀ s t : State, step s = .next t →
    (t.fault = none →
      t.dt.toNat = (match s.nextInstr with | .ldDtV x => (s.readV x).toNat | _ => s.dt.toNat) - 1 ∧
      t.st.toNat = (match s.nextInstr with | .ldStV x => (s.readV x).toNat | _ => s.st.toNat) - 1) ∧
    (t.fault ≠ none → t.dt = s.dt ∧ t.st = s.st)

/-- R228: a step outputs `Unknown(opcode, pc)` exactly when it executes the unknown arm. The form of the report is the
spec's own D28, and its field is the model's (log entry 3). -/
def Obligations.DiagnosticExactlyOnUnknownOpcodes : Prop :=
  ∀ s t : State, step s = .next t →
    (s.running ∧ s.nextInstr.isUnknown = true → t.diag = some ⟨s.nextWord, s.pc⟩) ∧
      (¬ (s.running ∧ s.nextInstr.isUnknown = true) → t.diag = none)

/-- R30, R91: after a step the latch holds the word it fetched, big-endian from the bytes at `pc` and `pc + 1`, even
when it faulted; a step that fetches nothing leaves it. When the latch is written is the spec's own D33 (log entry
16). -/
def Obligations.LatchHoldsTheFetchedWord : Prop :=
  ∀ s t : State, step s = .next t →
    (s.running → t.opcode.toNat = (s.readByte s.pc.toNat).toNat * 256 + (s.readByte (s.pc.toNat + 1)).toNat) ∧
      (¬ s.running → t.opcode = s.opcode)

/-- R96: a step whose word is an unknown opcode (the words R80 lists) outputs the diagnostic, advances `pc` by 2 and
ticks the timers, and changes nothing else but the latch. The words of group E and the report rest on the spec's own
D19 and D28 (log entries 3, 12). -/
def Obligations.UnknownWordsRunTheUnknownArm : Prop :=
  ∀ s : State, s.running →
    let w := s.nextWord.toNat
    ((w / 4096 = 0 ∧ w % 256 ∉ [0xE0, 0xEE]) ∨ (w / 4096 = 8 ∧ w % 16 ∉ [0, 1, 2, 3, 4, 5, 6, 7, 0xE]) ∨
      (w / 4096 = 0xE ∧ w % 256 ∉ [0x9E, 0xA1]) ∨
      (w / 4096 = 0xF ∧ w % 256 ∉ [0x07, 0x0A, 0x15, 0x18, 0x1E, 0x29, 0x33, 0x55, 0x65])) →
    step s = .next { s with
      opcode := s.nextWord, diag := some ⟨s.nextWord, s.pc⟩, pc := s.pc + 2#16,
      dt := tickByte s.dt, st := tickByte s.st }

/-- R244: only CXNN samples `rand_byte`: any other step is the same, and leaves the port as it is, whatever byte is
driven and whichever free byte would be next (the two fields are the model's, log entry 4). Rests on the spec's own
D24. -/
def Obligations.RandomPortIsSampledByRndAlone : Prop :=
  ∀ (s t : State) (b : Option Byte) (n : Nat), (s.running → ∀ x nn, s.nextInstr ≠ .rnd x nn) → step s = .next t →
    step { s with randByte := b, draws := n } = .next { t with randByte := b, draws := n }

/-- R272: `FX15` with `V[X] = n > 0`, followed at once by `FX07`, reads `n - 1`. Rests on the spec's own D9 (log entry
9). -/
def Obligations.TimerWriteThenReadLosesOneTick : Prop :=
  ∀ (s t u : State) (x y : Reg), s.running → s.nextInstr = .ldDtV x → 0 < (s.readV x).toNat → step s = .next t →
    t.running → t.nextInstr = .ldVDt y → step t = .next u → (u.readV y).toNat = (s.readV x).toNat - 1

/-- R63, R274: the bytes that FX55 stores are the bytes the next step fetches from those addresses. Rests on the
spec's own D23 (log entry 13). -/
def Obligations.StoredBytesAreFetched : Prop :=
  ∀ (s t : State) (x : Reg) (k : Nat) (hk : k + 1 ≤ x.val), s.running → s.nextInstr = .ldMemV x →
    s.i.toNat + x.val ≤ 0xFFF → s.pc.toNat + 2 = s.i.toNat + k → step s = .next t →
    t.running ∧ t.nextWord = wordOfBytes (s.readV ⟨k, by omega⟩) (s.readV ⟨k + 1, by omega⟩)

/-! ### Invariants -/

/-- R94, R110, R221, R228, R39: every step from a state that meets the invariant answers one that meets it. The
canonical form is the model's (log entry 15), and the records' shapes rest on D2 to D8 (log entries 1, 14). -/
def Obligations.StepKeepsTheInvariant : Prop :=
  ∀ s t : State, s.Inv → step s = .next t → t.Inv

/-- The invariant holds after reset, whatever FONT is. The invariant is the model's (log entries 1, 15). -/
def Obligations.ResetMeetsTheInvariant : Prop :=
  State.reset.Inv ∧ ∀ font : Font, (State.initial font).Inv

/-- R247, R265: the invariant holds after every run, of steps and host actions in any order, from a state that meets
it. The host's actions are the model's reading of D25, D26 and D29 (log entries 5, 6). -/
def Obligations.EveryRunKeepsTheInvariant : Prop :=
  ∀ (events : List Event) (s t : State), s.Inv → runEvents events s = .next t → t.Inv

/-- R222: from a Faulted state, a run in which the host does not boot leaves the fault record as it is and every part
of the state but `Key`, `redraw` and the ports' fields: no step ever executes again. Rests on the spec's own D2 (log
entry 1) and on the host's actions (log entries 5, 6). -/
def Obligations.OnlyBootLeavesTheFaultedState : Prop :=
  ∀ (events : List Event) (s t : State), s.fault ≠ none → (∀ image, Event.host (.boot image) ∉ events) →
    runEvents events s = .next t →
    t = { s with keys := t.keys, redraw := t.redraw, randByte := t.randByte, diag := t.diag }

/-- The canonical form of the memory, which is the model's own: memories with the same FONT that read the same at
every address are the same data. See log entry 15. -/
def Obligations.CanonicalMemoriesAreEqualData : Prop :=
  ∀ m m' : Memory, m.wf = true → m'.wf = true → m.font = m'.font → (∀ a, m.read a = m'.read a) → m = m'

/-! ### Reset and boot -/

/-- R40, R260: what `init` leaves, from any state: every register, slot, timer, cell and key, no fault, FONT at
0x000..0x04F (glyph g at 5g, its rows in the high nibbles) and 0x00 in the rest of memory. The keys and the fault
record rest on the spec's own D34 (log entry 18), and FONT is a parameter (D16, log entry 2). -/
def Obligations.InitLeavesTheResetValues : Prop :=
  ∀ s : State,
    (∀ r, s.init.readV r = 0#8) ∧ s.init.i = 0x0000#16 ∧ s.init.pc = 0x0200#16 ∧ s.init.sp = 0 ∧
      (∀ k : Fin 16, s.init.stack[k] = 0x0000#16) ∧ s.init.dt = 0#8 ∧ s.init.st = 0#8 ∧ s.init.opcode = 0x0000#16 ∧
      s.init.redraw = false ∧ (∀ x y, x < 64 → y < 32 → Framebuffer.cell s.init.fb x y = false) ∧
      (∀ k : Fin 16, s.init.keys[k] = false) ∧ s.init.fault = none ∧
      (∀ (g : Fin 16) (r : Fin 5), (s.init.readByte (5 * g.val + r.val)).toNat = (s.mem.font[g][r]).toNat * 16) ∧
      (∀ a, 0x050 ≤ a → a ≤ 0xFFF → s.init.readByte a = 0#8)

/-- R261: `load` copies an image of at most 3584 bytes to 0x200 on, leaves every other byte and all other state, and
refuses a longer one. The refusal is the spec's own D29 (log entry 6). -/
def Obligations.LoadCopiesTheImage : Prop :=
  ∀ (image : List Byte) (s : State),
    (image.length ≤ 3584 → ∃ t, load image s = .next t ∧ t = { s with mem := t.mem } ∧
      (∀ (k : Nat) (hk : k < image.length), t.readByte (0x200 + k) = image[k]) ∧
      (∀ a, a < 0x200 ∨ 0x200 + image.length ≤ a → t.readByte a = s.readByte a)) ∧
    (3584 < image.length → load image s = .refused (.imageTooLong image.length))

/-- R262: after `init` and `load` the core is running at 0x200 with an empty stack, and its first step fetches
`mem[0x200..0x201]`, the first two bytes of the image. The host action is the model's (log entry 6). -/
def Obligations.BootedCoreFetchesTheEntryPoint : Prop :=
  ∀ (b0 b1 : Byte) (rest : List Byte) (s : State), rest.length ≤ 3582 →
    ∃ t, hostAct (.boot (b0 :: b1 :: rest)) s = .next t ∧ t.running ∧ t.pc = 0x200#16 ∧ t.sp = 0 ∧
      t.nextInstr = decodeWord (wordOfBytes b0 b1)

/-- R242, R243, R244, R247: a key set or cleared by the input source, the presentation's acknowledge, and a driven random
byte each write their own field of the state and nothing else. The form of the actions is the model's (log entries 4, 5),
after the spec's own D24 to D26. -/
def Obligations.HostActionsWriteTheirOwnField : Prop :=
  ∀ (k : Fin 16) (pressed : Bool) (b : Byte) (s : State),
    (∃ t, hostAct (.setKey k pressed) s = .next t ∧ t.keys[k] = pressed ∧
      (∀ j : Fin 16, j ≠ k → t.keys[j] = s.keys[j]) ∧ Frame [.keys] [] s t) ∧
    (∃ t, hostAct .redrawAck s = .next t ∧ t.redraw = false ∧ Frame [.redraw] [] s t) ∧
    (∃ t, hostAct (.driveRand b) s = .next t ∧ t.draw = b ∧ t.draws = s.draws ∧ Frame [.random] [] s t)

/-! ### Control flow -/

/-- R110: 00EE with a saved address pops it and continues 2 past it, the slot keeping its value; with none it faults.
The fault is the spec's own D7 (log entry 14), and the ignored bits D17 (log entry 12). -/
def Obligations.ReturnPopsTheSavedAddress : Prop :=
  ∀ (g : Nibble) (s : State),
    (∀ k : Fin 16, s.sp.val = k.val + 1 →
      ∃ t, exec (.ret g) s = .next t ∧ t.sp.val = k.val ∧ t.pc.toNat = (s.stack[k].toNat + 2) % 65536 ∧
        Frame [.pc, .stackPointer] [] s t) ∧
    (s.sp = 0 → exec (.ret g) s = .next { s with fault := some ⟨.stackUnderflow, s.pc, some s.opcode, 0⟩ })

/-- R111, R117: 1NNN and BNNN replace `pc`, with no increment; BNNN adds `V[0]`, and the sum is not reduced to 12
bits. The width of BNNN's sum is the spec's own D37 (log entry 18). -/
def Obligations.JumpsReplaceThePc : Prop :=
  ∀ (nnn : Addr12) (s : State),
    (∃ t, exec (.jp nnn) s = .next t ∧ t.pc.toNat = nnn.toNat ∧ Frame [.pc] [] s t) ∧
    (∃ t, exec (.jpV0 nnn) s = .next t ∧ t.pc.toNat = nnn.toNat + (s.readV 0).toNat ∧ Frame [.pc] [] s t)

/-- R112: 2NNN with room on the stack saves its own address in `stack[sp]`, increments `sp` and jumps; with `sp = 16`
it faults. The fault is the spec's own D6 (log entry 14). -/
def Obligations.CallPushesItsOwnAddress : Prop :=
  ∀ (nnn : Addr12) (s : State),
    (∀ k : Fin 16, s.sp.val = k.val →
      ∃ t, exec (.call nnn) s = .next t ∧ t.stack[k] = s.pc ∧ t.sp.val = k.val + 1 ∧ t.pc.toNat = nnn.toNat ∧
        (∀ j : Fin 16, j ≠ k → t.stack[j] = s.stack[j]) ∧ Frame [.pc, .stackPointer, .stackSlots] [] s t) ∧
    (s.sp = 16 → exec (.call nnn) s = .next { s with fault := some ⟨.stackOverflow, s.pc, some s.opcode, 16⟩ })

/-- R110, R112: a call whose callee leaves the stack as it found it returns to the instruction after the call, with
the stack pointer as before it. Derived from the two rules. -/
def Obligations.ReturnResumesAfterTheCall : Prop :=
  ∀ (nnn : Addr12) (g : Nibble) (s t u : State), s.sp ≠ 16 → exec (.call nnn) s = .next t →
    u.sp = t.sp → u.stack = t.stack →
    ∃ w, exec (.ret g) u = .next w ∧ w.pc = s.pc + 2#16 ∧ w.sp = s.sp

/-- R113, R114: the skips on an immediate go to `pc + 4` when their condition holds, else to `pc + 2`, and write nothing
else. -/
def Obligations.ImmediateSkipsBranchOnTheirCondition : Prop :=
  ∀ (x : Reg) (nn : Byte) (s : State),
    (∃ t, exec (.seImm x nn) s = .next t ∧
      t.pc.toNat = (s.pc.toNat + if s.readV x = nn then 4 else 2) % 65536 ∧ Frame [.pc] [] s t) ∧
    (∃ t, exec (.sneImm x nn) s = .next t ∧
      t.pc.toNat = (s.pc.toNat + if s.readV x ≠ nn then 4 else 2) % 65536 ∧ Frame [.pc] [] s t)

/-- R115, R116: the skips on two registers go to `pc + 4` when their condition holds, else to `pc + 2`, and write nothing
else. That bits 3:0 have no effect is the spec's own D18 (log entry 12). -/
def Obligations.RegisterSkipsBranchOnTheirCondition : Prop :=
  ∀ (x y : Reg) (g : Nibble) (s : State),
    (∃ t, exec (.seReg x y g) s = .next t ∧
      t.pc.toNat = (s.pc.toNat + if s.readV x = s.readV y then 4 else 2) % 65536 ∧ Frame [.pc] [] s t) ∧
    (∃ t, exec (.sneReg x y g) s = .next t ∧
      t.pc.toNat = (s.pc.toNat + if s.readV x ≠ s.readV y then 4 else 2) % 65536 ∧ Frame [.pc] [] s t)

/-! ### Loads, ALU, random -/

/-- R130 to R135: these write `V[X]` and advance `pc` by 2; none of them writes VF as a flag. -/
def Obligations.LoadsAndLogicWriteTheDestinationAlone : Prop :=
  ∀ (x y : Reg) (nn : Byte) (s : State),
    let gives := fun (i : Instr) (v : Nat) =>
      ∃ t, exec i s = .next t ∧ (t.readV x).toNat = v ∧ t.pc.toNat = (s.pc.toNat + 2) % 65536 ∧ Frame [.pc] [x] s t
    gives (.ldImm x nn) nn.toNat ∧
    gives (.addImm x nn) (((s.readV x).toNat + nn.toNat) % 256) ∧
    gives (.ldReg x y) (s.readV y).toNat ∧
    gives (.orReg x y) ((s.readV x).toNat ||| (s.readV y).toNat) ∧
    gives (.andReg x y) ((s.readV x).toNat &&& (s.readV y).toNat) ∧
    gives (.xorReg x y) ((s.readV x).toNat ^^^ (s.readV y).toNat)

/-- R140: 8XY4 writes the sum mod 256 to `V[X]`, and the carry to VF unless X is 0xF; the operands are the old ones.
Where X or Y is 0xF it rests on the spec's own D10 (log entry 7). -/
def Obligations.AddRegistersCarries : Prop :=
  ∀ (x y : Reg) (s : State),
    ∃ t, exec (.addReg x y) s = .next t ∧
      (t.readV x).toNat = ((s.readV x).toNat + (s.readV y).toNat) % 256 ∧
      (x ≠ VF → (t.readV VF).toNat = if (s.readV x).toNat + (s.readV y).toNat > 255 then 1 else 0) ∧
      t.pc.toNat = (s.pc.toNat + 2) % 65536 ∧ Frame [.pc] [x, VF] s t

/-- R141, R143: 8XY5 and 8XY7 write the strict comparison of the old operands to VF first, and then the difference of
the registers as they are after that write: where X or Y is 0xF, its operand is the flag. Where X or Y is 0xF it rests
on the spec's own D10 (log entry 7). -/
def Obligations.SubtractsSetTheFlagFirst : Prop :=
  ∀ (x y : Reg) (s : State),
    let a := (s.readV x).toNat
    let b := (s.readV y).toNat
    let f := if a > b then 1 else 0
    let g := if b > a then 1 else 0
    (∃ t, exec (.subReg x y) s = .next t ∧ (x ≠ VF → (t.readV VF).toNat = f) ∧
      (x ≠ VF → y ≠ VF → (t.readV x).toNat = (256 + a - b) % 256) ∧
      (x = VF → y ≠ VF → (t.readV x).toNat = (256 + f - b) % 256) ∧
      (x ≠ VF → y = VF → (t.readV x).toNat = (256 + a - f) % 256) ∧
      (x = VF → y = VF → (t.readV x).toNat = 0) ∧
      t.pc.toNat = (s.pc.toNat + 2) % 65536 ∧ Frame [.pc] [x, VF] s t) ∧
    (∃ t, exec (.subnReg x y) s = .next t ∧ (x ≠ VF → (t.readV VF).toNat = g) ∧
      (x ≠ VF → y ≠ VF → (t.readV x).toNat = (256 + b - a) % 256) ∧
      (x = VF → y ≠ VF → (t.readV x).toNat = (256 + b - g) % 256) ∧
      (x ≠ VF → y = VF → (t.readV x).toNat = (256 + g - a) % 256) ∧
      (x = VF → y = VF → (t.readV x).toNat = 0) ∧
      t.pc.toNat = (s.pc.toNat + 2) % 65536 ∧ Frame [.pc] [x, VF] s t)

/-- R142, R144: 8XY6 and 8XYE write the bit shifted out to VF first, and then shift `V[X]` as it is after that write;
Y has no effect. Where X is 0xF it rests on the spec's own D10 (log entry 7). -/
def Obligations.ShiftsSetTheFlagFirst : Prop :=
  ∀ (x y : Reg) (s : State),
    let a := (s.readV x).toNat
    (∃ t, exec (.shr x y) s = .next t ∧ (x ≠ VF → (t.readV x).toNat = a / 2 ∧ (t.readV VF).toNat = a % 2) ∧
      (x = VF → (t.readV VF).toNat = 0) ∧
      t.pc.toNat = (s.pc.toNat + 2) % 65536 ∧ Frame [.pc] [x, VF] s t) ∧
    (∃ t, exec (.shl x y) s = .next t ∧ (x ≠ VF → (t.readV x).toNat = 2 * a % 256 ∧ (t.readV VF).toNat = a / 128) ∧
      (x = VF → (t.readV VF).toNat = 2 * (a / 128)) ∧
      t.pc.toNat = (s.pc.toNat + 2) % 65536 ∧ Frame [.pc] [x, VF] s t)

/-- R145, R244: CXNN completes from every state and gives `V[X]` the AND of NN and a byte: the one driven on
`rand_byte`, whichever it is, and else a free one; each draw is used up (the port's fields are the model's, log entry
4). The free draw is the spec's own D24. -/
def Obligations.RandomIsMaskedByTheImmediate : Prop :=
  ∀ (x : Reg) (nn : Byte) (s : State),
    ∃ (t : State) (r : Byte), exec (.rnd x nn) s = .next t ∧ (∀ b, s.randByte = some b → r = b) ∧
      t.readV x = r &&& nn ∧ (t.readV x).toNat ≤ nn.toNat ∧ t.randByte = none ∧ t.draws = s.draws + 1 ∧
      t.pc.toNat = (s.pc.toNat + 2) % 65536 ∧ Frame [.pc, .random] [x] s t

/-! ### Display -/

/-- R161: 00E0 turns every cell off, sets `redraw` and advances `pc`; VF is not written. That bits 11:8 are ignored is
the spec's own D17 (log entry 12). -/
def Obligations.ClearTurnsEveryCellOff : Prop :=
  ∀ (g : Nibble) (s : State),
    ∃ t, exec (.cls g) s = .next t ∧ (∀ x y, x < 64 → y < 32 → Framebuffer.cell t.fb x y = false) ∧
      t.redraw = true ∧ t.pc.toNat = (s.pc.toNat + 2) % 65536 ∧ Frame [.pc, .redraw, .framebuffer] [] s t

/-- R162: DXYN whose rows are in memory and whose set bits all fall on the screen toggles exactly the cells under
them, sets VF to whether one was on, and sets `redraw`; the coordinates are the old registers. Rests on the spec's own
D5, D13, D14 and D15 (log entries 7, 11, 14). -/
def Obligations.DrawTogglesTheSpriteCells : Prop :=
  ∀ (x y : Reg) (n : Nibble) (s : State),
    (∀ r, r < n.toNat → s.i.toNat + r ≤ 0xFFF) →
    (∀ r c, r < n.toNat → c < 8 → s.spriteBit r c → (s.readV x).toNat + c ≤ 63 ∧ (s.readV y).toNat + r ≤ 31) →
    let under := fun px py => ∃ r c, r < n.toNat ∧ c < 8 ∧ s.spriteBit r c ∧
      px = (s.readV x).toNat + c ∧ py = (s.readV y).toNat + r
    ∃ t, exec (.drw x y n) s = .next t ∧
      (∀ px py, px < 64 → py < 32 →
        (under px py → Framebuffer.cell t.fb px py = !Framebuffer.cell s.fb px py) ∧
        (¬ under px py → Framebuffer.cell t.fb px py = Framebuffer.cell s.fb px py)) ∧
      ((∃ px py, under px py ∧ Framebuffer.cell s.fb px py = true) → t.readV VF = 1#8) ∧
      ((¬ ∃ px py, under px py ∧ Framebuffer.cell s.fb px py = true) → t.readV VF = 0#8) ∧
      t.redraw = true ∧ t.pc.toNat = (s.pc.toNat + 2) % 65536 ∧ Frame [.pc, .redraw, .framebuffer] [VF] s t

/-- R162, R225: DXYN checks its addresses first and then its set bits, each in its stated order, and faults on the
first offender, writing nothing but the record. Rests on the spec's own D3, D5 and D32 (log entry 14). -/
def Obligations.DrawFaultsOnTheFirstOffender : Prop :=
  ∀ (x y : Reg) (n : Nibble) (s : State),
    (∀ r, r < n.toNat → s.i.toNat + r > 0xFFF → (∀ j, j < r → s.i.toNat + j ≤ 0xFFF) →
      exec (.drw x y n) s =
        .next { s with fault := some ⟨.memoryOutOfRange, s.pc, some s.opcode, s.i.toNat + r⟩ }) ∧
    (∀ r c, (∀ j, j < n.toNat → s.i.toNat + j ≤ 0xFFF) →
      s.firstBitOff (s.readV x).toNat (s.readV y).toNat n.toNat r c →
      exec (.drw x y n) s = .next { s with fault := some ⟨.drawOffScreen, s.pc, some s.opcode,
        ((s.readV x).toNat + c) + 512 * ((s.readV y).toNat + r)⟩ })

/-- The source's property quoted in R162: drawing the same sprite twice at the same place restores the framebuffer,
and the second draw sets VF when the sprite has a set bit and its cells started off. Rests on the spec's own D14 and
D15 (log entry 11). -/
def Obligations.DrawingTwiceRestoresTheScreen : Prop :=
  ∀ (x y : Reg) (n : Nibble) (s t : State), x ≠ VF → y ≠ VF → s.fault = none →
    exec (.drw x y n) s = .next t → t.fault = none →
    ∃ u, exec (.drw x y n) t = .next u ∧ u.fault = none ∧ u.fb = s.fb ∧
      ((∃ r c, r < n.toNat ∧ c < 8 ∧ s.spriteBit r c) →
        (∀ r c, r < n.toNat → c < 8 → s.spriteBit r c →
          Framebuffer.cell s.fb ((s.readV x).toNat + c) ((s.readV y).toNat + r) = false) →
        u.readV VF = 1#8)

/-! ### Keypad and timers -/

/-- R180, R181: EX9E and EXA1 skip on the state of key `V[X]`, and fault when `V[X] > 15`. The fault is the spec's own
D8 (log entry 14). -/
def Obligations.KeySkipsReadTheSelectedKey : Prop :=
  ∀ (x : Reg) (s : State),
    (∀ k : Fin 16, (s.readV x).toNat = k.val →
      (∃ t, exec (.skp x) s = .next t ∧
        t.pc.toNat = (s.pc.toNat + if s.keys[k] = true then 4 else 2) % 65536 ∧ Frame [.pc] [] s t) ∧
      (∃ t, exec (.sknp x) s = .next t ∧
        t.pc.toNat = (s.pc.toNat + if s.keys[k] = false then 4 else 2) % 65536 ∧ Frame [.pc] [] s t)) ∧
    (15 < (s.readV x).toNat →
      exec (.skp x) s =
        .next { s with fault := some ⟨.keyIndexOutOfRange, s.pc, some s.opcode, (s.readV x).toNat⟩ } ∧
      exec (.sknp x) s =
        .next { s with fault := some ⟨.keyIndexOutOfRange, s.pc, some s.opcode, (s.readV x).toNat⟩ })

/-- R183: FX0A gives `V[X]` the highest pressed key and advances; with no key pressed it changes nothing. The scan's
order is the spec's own D12 (log entry 10). -/
def Obligations.KeyWaitTakesTheHighestPressedKey : Prop :=
  ∀ (x : Reg) (s : State),
    (∀ k : Fin 16, s.keys[k] = true → (∀ j : Fin 16, k < j → s.keys[j] = false) →
      ∃ t, exec (.ldVK x) s = .next t ∧ (t.readV x).toNat = k.val ∧ t.pc.toNat = (s.pc.toNat + 2) % 65536 ∧
        Frame [.pc] [x] s t) ∧
    ((∀ k : Fin 16, s.keys[k] = false) → exec (.ldVK x) s = .next s)

/-- R182, R184, R185: FX07 reads `DT`; FX15 and FX18 write `DT` and `ST`; all before the step's tick. That the tick
comes after it rests on the spec's own D9 (log entry 9). -/
def Obligations.TimerAccessMovesTheByte : Prop :=
  ∀ (x : Reg) (s : State),
    (∃ t, exec (.ldVDt x) s = .next t ∧ t.readV x = s.dt ∧ t.pc.toNat = (s.pc.toNat + 2) % 65536 ∧
      Frame [.pc] [x] s t) ∧
    (∃ t, exec (.ldDtV x) s = .next t ∧ t.dt = s.readV x ∧ t.pc.toNat = (s.pc.toNat + 2) % 65536 ∧
      Frame [.pc, .delayTimer] [] s t) ∧
    (∃ t, exec (.ldStV x) s = .next t ∧ t.st = s.readV x ∧ t.pc.toNat = (s.pc.toNat + 2) % 65536 ∧
      Frame [.pc, .soundTimer] [] s t)

/-! ### Index and memory -/

/-- R200, R202: ANNN sets `I` to the immediate, and FX29 to five times `V[X]`, which is not masked to 4 bits. -/
def Obligations.IndexLoadsSetTheAddress : Prop :=
  ∀ (x : Reg) (nnn : Addr12) (s : State),
    (∃ t, exec (.ldI nnn) s = .next t ∧ t.i.toNat = nnn.toNat ∧ t.pc.toNat = (s.pc.toNat + 2) % 65536 ∧
      Frame [.pc, .index] [] s t) ∧
    (∃ t, exec (.ldF x) s = .next t ∧ t.i.toNat = (s.readV x).toNat * 5 ∧
      t.pc.toNat = (s.pc.toNat + 2) % 65536 ∧ Frame [.pc, .index] [] s t)

/-- R201: FX1E adds the old `V[X]` to `I`; the sum wraps at 16 bits, and VF is 1 when the wrapped value exceeds 0xFFF. Of
which value the flag is, and the order where X is 0xF, are the spec's own D11 and D10 (log entry 7). -/
def Obligations.IndexAddSetsTheFlagFromTheSum : Prop :=
  ∀ (x : Reg) (s : State),
    ∃ t, exec (.addI x) s = .next t ∧ t.i.toNat = (s.i.toNat + (s.readV x).toNat) % 65536 ∧
      (t.readV VF).toNat = (if (s.i.toNat + (s.readV x).toNat) % 65536 > 0xFFF then 1 else 0) ∧
      t.pc.toNat = (s.pc.toNat + 2) % 65536 ∧ Frame [.pc, .index] [VF] s t

/-- R203: FX33 stores the hundreds, tens and units of `V[X]` at `I`, `I + 1`, `I + 2`; every other byte reads as
before, and `I` is not changed; where `I + 2` leaves memory it faults on the lowest such address. The fault is the
spec's own D3 (log entry 14). -/
def Obligations.BcdStoresThreeDigits : Prop :=
  ∀ (x : Reg) (s : State),
    (s.i.toNat ≤ 0xFFD →
      ∃ t, exec (.ldB x) s = .next t ∧
        (t.readByte s.i.toNat).toNat = (s.readV x).toNat / 100 ∧
        (t.readByte (s.i.toNat + 1)).toNat = (s.readV x).toNat / 10 % 10 ∧
        (t.readByte (s.i.toNat + 2)).toNat = (s.readV x).toNat % 10 ∧
        (∀ a, a < s.i.toNat ∨ s.i.toNat + 2 < a → t.readByte a = s.readByte a) ∧
        t.pc.toNat = (s.pc.toNat + 2) % 65536 ∧ Frame [.pc, .memory] [] s t) ∧
    (s.i.toNat > 0xFFD →
      exec (.ldB x) s =
        .next { s with fault := some ⟨.memoryOutOfRange, s.pc, some s.opcode, max s.i.toNat 0x1000⟩ })

/-- R204: FX55 stores `V[0..X]` at `I` to `I + X` and adds X + 1 to `I`; every other byte reads as before; where `I +
X` leaves memory it faults, and not even the in-range bytes are written. The fault is the spec's own D3 (log entry
14). -/
def Obligations.RegisterDumpStoresAscending : Prop :=
  ∀ (x : Reg) (s : State),
    (s.i.toNat + x.val ≤ 0xFFF →
      ∃ t, exec (.ldMemV x) s = .next t ∧
        (∀ k : Reg, k ≤ x → t.readByte (s.i.toNat + k.val) = s.readV k) ∧
        (∀ a, a < s.i.toNat ∨ s.i.toNat + x.val < a → t.readByte a = s.readByte a) ∧
        t.i.toNat = s.i.toNat + x.val + 1 ∧
        t.pc.toNat = (s.pc.toNat + 2) % 65536 ∧ Frame [.pc, .memory, .index] [] s t) ∧
    (s.i.toNat + x.val > 0xFFF →
      exec (.ldMemV x) s =
        .next { s with fault := some ⟨.memoryOutOfRange, s.pc, some s.opcode, max s.i.toNat 0x1000⟩ })

/-- R205: FX65 loads `V[0..X]` from `I` to `I + X` and adds X + 1 to `I`; the registers above X and all of memory are
unchanged; where `I + X` leaves memory it faults, and no register changes. The fault is the spec's own D3 (log entry
14). -/
def Obligations.RegisterLoadReadsAscending : Prop :=
  ∀ (x : Reg) (s : State),
    (s.i.toNat + x.val ≤ 0xFFF →
      ∃ t, exec (.ldVMem x) s = .next t ∧
        (∀ k : Reg, k ≤ x → t.readV k = s.readByte (s.i.toNat + k.val)) ∧
        t.i.toNat = s.i.toNat + x.val + 1 ∧ t.pc.toNat = (s.pc.toNat + 2) % 65536 ∧
        Frame [.pc, .index] ((List.finRange 16).filter (· ≤ x)) s t) ∧
    (s.i.toNat + x.val > 0xFFF →
      exec (.ldVMem x) s =
        .next { s with fault := some ⟨.memoryOutOfRange, s.pc, some s.opcode, max s.i.toNat 0x1000⟩ })

/-- The source's round trip quoted in R205: after FX55, FX65 from the same `I` gives back the registers, whatever the
registers hold by then, and `I` has advanced by X + 1 after each. That memory in range completes rests on D3 (log
entry 14). -/
def Obligations.LoadGivesBackTheDump : Prop :=
  ∀ (x : Reg) (s : State), s.i.toNat + x.val ≤ 0xFFF →
    ∃ t, exec (.ldMemV x) s = .next t ∧ t.i.toNat = s.i.toNat + x.val + 1 ∧
      ∀ u : State, u.i = s.i → (∀ a, u.readByte a = t.readByte a) →
        ∃ w, exec (.ldVMem x) u = .next w ∧ (∀ k : Reg, k ≤ x → w.readV k = s.readV k) ∧ w.i = t.i

/-! ### Unknown opcodes -/

/-- R96: the unknown arm, in each of its four groups, outputs the latch and `pc` as the diagnostic and advances `pc`
by 2; any other state is unchanged. The report is the spec's own D28 (log entries 3, 16), and group E's D19 (log entry
12). -/
def Obligations.UnknownArmsReportAndAdvance : Prop :=
  ∀ (x y k : Nibble) (nn : Byte) (s : State),
    let reports := fun (i : Instr) =>
      ∃ t, exec i s = .next t ∧ t.diag = some ⟨s.opcode, s.pc⟩ ∧ t.pc.toNat = (s.pc.toNat + 2) % 65536 ∧
        Frame [.pc, .diag] [] s t
    reports (.unknown0 x nn) ∧ reports (.unknown8 x y k) ∧ reports (.unknownE x nn) ∧ reports (.unknownF x nn)
end

