-- ==== Sys2Proof/Laws/State.lean ====
section
/-! SUPPORT. What each update of the state leaves in each field: one lemma per field per update, and the read of a
register after the write of one. -/

namespace Sys2Proof.Machine

variable (s : State)

/-! ### `writeV` -/

@[simp] theorem State.writeV_v (r : Reg) (b : Byte) : (s.writeV r b).v = s.v.set r b := rfl
@[simp] theorem State.writeV_i (r : Reg) (b : Byte) : (s.writeV r b).i = s.i := rfl
@[simp] theorem State.writeV_pc (r : Reg) (b : Byte) : (s.writeV r b).pc = s.pc := rfl
@[simp] theorem State.writeV_sp (r : Reg) (b : Byte) : (s.writeV r b).sp = s.sp := rfl
@[simp] theorem State.writeV_stack (r : Reg) (b : Byte) : (s.writeV r b).stack = s.stack := rfl
@[simp] theorem State.writeV_dt (r : Reg) (b : Byte) : (s.writeV r b).dt = s.dt := rfl
@[simp] theorem State.writeV_st (r : Reg) (b : Byte) : (s.writeV r b).st = s.st := rfl
@[simp] theorem State.writeV_opcode (r : Reg) (b : Byte) : (s.writeV r b).opcode = s.opcode := rfl
@[simp] theorem State.writeV_redraw (r : Reg) (b : Byte) : (s.writeV r b).redraw = s.redraw := rfl
@[simp] theorem State.writeV_mem (r : Reg) (b : Byte) : (s.writeV r b).mem = s.mem := rfl
@[simp] theorem State.writeV_fb (r : Reg) (b : Byte) : (s.writeV r b).fb = s.fb := rfl
@[simp] theorem State.writeV_keys (r : Reg) (b : Byte) : (s.writeV r b).keys = s.keys := rfl
@[simp] theorem State.writeV_fault (r : Reg) (b : Byte) : (s.writeV r b).fault = s.fault := rfl
@[simp] theorem State.writeV_diag (r : Reg) (b : Byte) : (s.writeV r b).diag = s.diag := rfl
@[simp] theorem State.writeV_randByte (r : Reg) (b : Byte) : (s.writeV r b).randByte = s.randByte := rfl
@[simp] theorem State.writeV_draws (r : Reg) (b : Byte) : (s.writeV r b).draws = s.draws := rfl
@[simp] theorem State.writeV_readByte (r : Reg) (b : Byte) (a' : Nat) : (s.writeV r b).readByte a' = s.readByte a' := rfl

/-! ### `setI` -/

@[simp] theorem State.setI_v (w : Word) : (s.setI w).v = s.v := rfl
@[simp] theorem State.setI_i (w : Word) : (s.setI w).i = w := rfl
@[simp] theorem State.setI_pc (w : Word) : (s.setI w).pc = s.pc := rfl
@[simp] theorem State.setI_sp (w : Word) : (s.setI w).sp = s.sp := rfl
@[simp] theorem State.setI_stack (w : Word) : (s.setI w).stack = s.stack := rfl
@[simp] theorem State.setI_dt (w : Word) : (s.setI w).dt = s.dt := rfl
@[simp] theorem State.setI_st (w : Word) : (s.setI w).st = s.st := rfl
@[simp] theorem State.setI_opcode (w : Word) : (s.setI w).opcode = s.opcode := rfl
@[simp] theorem State.setI_redraw (w : Word) : (s.setI w).redraw = s.redraw := rfl
@[simp] theorem State.setI_mem (w : Word) : (s.setI w).mem = s.mem := rfl
@[simp] theorem State.setI_fb (w : Word) : (s.setI w).fb = s.fb := rfl
@[simp] theorem State.setI_keys (w : Word) : (s.setI w).keys = s.keys := rfl
@[simp] theorem State.setI_fault (w : Word) : (s.setI w).fault = s.fault := rfl
@[simp] theorem State.setI_diag (w : Word) : (s.setI w).diag = s.diag := rfl
@[simp] theorem State.setI_randByte (w : Word) : (s.setI w).randByte = s.randByte := rfl
@[simp] theorem State.setI_draws (w : Word) : (s.setI w).draws = s.draws := rfl
@[simp] theorem State.setI_readV (w : Word) (q : Reg) : (s.setI w).readV q = s.readV q := rfl
@[simp] theorem State.setI_readByte (w : Word) (a' : Nat) : (s.setI w).readByte a' = s.readByte a' := rfl

/-! ### `setPc` -/

@[simp] theorem State.setPc_v (w : Word) : (s.setPc w).v = s.v := rfl
@[simp] theorem State.setPc_i (w : Word) : (s.setPc w).i = s.i := rfl
@[simp] theorem State.setPc_pc (w : Word) : (s.setPc w).pc = w := rfl
@[simp] theorem State.setPc_sp (w : Word) : (s.setPc w).sp = s.sp := rfl
@[simp] theorem State.setPc_stack (w : Word) : (s.setPc w).stack = s.stack := rfl
@[simp] theorem State.setPc_dt (w : Word) : (s.setPc w).dt = s.dt := rfl
@[simp] theorem State.setPc_st (w : Word) : (s.setPc w).st = s.st := rfl
@[simp] theorem State.setPc_opcode (w : Word) : (s.setPc w).opcode = s.opcode := rfl
@[simp] theorem State.setPc_redraw (w : Word) : (s.setPc w).redraw = s.redraw := rfl
@[simp] theorem State.setPc_mem (w : Word) : (s.setPc w).mem = s.mem := rfl
@[simp] theorem State.setPc_fb (w : Word) : (s.setPc w).fb = s.fb := rfl
@[simp] theorem State.setPc_keys (w : Word) : (s.setPc w).keys = s.keys := rfl
@[simp] theorem State.setPc_fault (w : Word) : (s.setPc w).fault = s.fault := rfl
@[simp] theorem State.setPc_diag (w : Word) : (s.setPc w).diag = s.diag := rfl
@[simp] theorem State.setPc_randByte (w : Word) : (s.setPc w).randByte = s.randByte := rfl
@[simp] theorem State.setPc_draws (w : Word) : (s.setPc w).draws = s.draws := rfl
@[simp] theorem State.setPc_readV (w : Word) (q : Reg) : (s.setPc w).readV q = s.readV q := rfl
@[simp] theorem State.setPc_readByte (w : Word) (a' : Nat) : (s.setPc w).readByte a' = s.readByte a' := rfl

/-! ### `advance` -/

@[simp] theorem State.advance_v : (s.advance).v = s.v := rfl
@[simp] theorem State.advance_i : (s.advance).i = s.i := rfl
@[simp] theorem State.advance_pc : (s.advance).pc = s.pc + 2#16 := rfl
@[simp] theorem State.advance_sp : (s.advance).sp = s.sp := rfl
@[simp] theorem State.advance_stack : (s.advance).stack = s.stack := rfl
@[simp] theorem State.advance_dt : (s.advance).dt = s.dt := rfl
@[simp] theorem State.advance_st : (s.advance).st = s.st := rfl
@[simp] theorem State.advance_opcode : (s.advance).opcode = s.opcode := rfl
@[simp] theorem State.advance_redraw : (s.advance).redraw = s.redraw := rfl
@[simp] theorem State.advance_mem : (s.advance).mem = s.mem := rfl
@[simp] theorem State.advance_fb : (s.advance).fb = s.fb := rfl
@[simp] theorem State.advance_keys : (s.advance).keys = s.keys := rfl
@[simp] theorem State.advance_fault : (s.advance).fault = s.fault := rfl
@[simp] theorem State.advance_diag : (s.advance).diag = s.diag := rfl
@[simp] theorem State.advance_randByte : (s.advance).randByte = s.randByte := rfl
@[simp] theorem State.advance_draws : (s.advance).draws = s.draws := rfl
@[simp] theorem State.advance_readV (q : Reg) : (s.advance).readV q = s.readV q := rfl
@[simp] theorem State.advance_readByte (a' : Nat) : (s.advance).readByte a' = s.readByte a' := rfl

/-! ### `skip` -/

@[simp] theorem State.skip_v : (s.skip).v = s.v := rfl
@[simp] theorem State.skip_i : (s.skip).i = s.i := rfl
@[simp] theorem State.skip_pc : (s.skip).pc = s.pc + 4#16 := rfl
@[simp] theorem State.skip_sp : (s.skip).sp = s.sp := rfl
@[simp] theorem State.skip_stack : (s.skip).stack = s.stack := rfl
@[simp] theorem State.skip_dt : (s.skip).dt = s.dt := rfl
@[simp] theorem State.skip_st : (s.skip).st = s.st := rfl
@[simp] theorem State.skip_opcode : (s.skip).opcode = s.opcode := rfl
@[simp] theorem State.skip_redraw : (s.skip).redraw = s.redraw := rfl
@[simp] theorem State.skip_mem : (s.skip).mem = s.mem := rfl
@[simp] theorem State.skip_fb : (s.skip).fb = s.fb := rfl
@[simp] theorem State.skip_keys : (s.skip).keys = s.keys := rfl
@[simp] theorem State.skip_fault : (s.skip).fault = s.fault := rfl
@[simp] theorem State.skip_diag : (s.skip).diag = s.diag := rfl
@[simp] theorem State.skip_randByte : (s.skip).randByte = s.randByte := rfl
@[simp] theorem State.skip_draws : (s.skip).draws = s.draws := rfl
@[simp] theorem State.skip_readV (q : Reg) : (s.skip).readV q = s.readV q := rfl
@[simp] theorem State.skip_readByte (a' : Nat) : (s.skip).readByte a' = s.readByte a' := rfl

/-! ### `setDt` -/

@[simp] theorem State.setDt_v (b : Byte) : (s.setDt b).v = s.v := rfl
@[simp] theorem State.setDt_i (b : Byte) : (s.setDt b).i = s.i := rfl
@[simp] theorem State.setDt_pc (b : Byte) : (s.setDt b).pc = s.pc := rfl
@[simp] theorem State.setDt_sp (b : Byte) : (s.setDt b).sp = s.sp := rfl
@[simp] theorem State.setDt_stack (b : Byte) : (s.setDt b).stack = s.stack := rfl
@[simp] theorem State.setDt_dt (b : Byte) : (s.setDt b).dt = b := rfl
@[simp] theorem State.setDt_st (b : Byte) : (s.setDt b).st = s.st := rfl
@[simp] theorem State.setDt_opcode (b : Byte) : (s.setDt b).opcode = s.opcode := rfl
@[simp] theorem State.setDt_redraw (b : Byte) : (s.setDt b).redraw = s.redraw := rfl
@[simp] theorem State.setDt_mem (b : Byte) : (s.setDt b).mem = s.mem := rfl
@[simp] theorem State.setDt_fb (b : Byte) : (s.setDt b).fb = s.fb := rfl
@[simp] theorem State.setDt_keys (b : Byte) : (s.setDt b).keys = s.keys := rfl
@[simp] theorem State.setDt_fault (b : Byte) : (s.setDt b).fault = s.fault := rfl
@[simp] theorem State.setDt_diag (b : Byte) : (s.setDt b).diag = s.diag := rfl
@[simp] theorem State.setDt_randByte (b : Byte) : (s.setDt b).randByte = s.randByte := rfl
@[simp] theorem State.setDt_draws (b : Byte) : (s.setDt b).draws = s.draws := rfl
@[simp] theorem State.setDt_readV (b : Byte) (q : Reg) : (s.setDt b).readV q = s.readV q := rfl
@[simp] theorem State.setDt_readByte (b : Byte) (a' : Nat) : (s.setDt b).readByte a' = s.readByte a' := rfl

/-! ### `setSt` -/

@[simp] theorem State.setSt_v (b : Byte) : (s.setSt b).v = s.v := rfl
@[simp] theorem State.setSt_i (b : Byte) : (s.setSt b).i = s.i := rfl
@[simp] theorem State.setSt_pc (b : Byte) : (s.setSt b).pc = s.pc := rfl
@[simp] theorem State.setSt_sp (b : Byte) : (s.setSt b).sp = s.sp := rfl
@[simp] theorem State.setSt_stack (b : Byte) : (s.setSt b).stack = s.stack := rfl
@[simp] theorem State.setSt_dt (b : Byte) : (s.setSt b).dt = s.dt := rfl
@[simp] theorem State.setSt_st (b : Byte) : (s.setSt b).st = b := rfl
@[simp] theorem State.setSt_opcode (b : Byte) : (s.setSt b).opcode = s.opcode := rfl
@[simp] theorem State.setSt_redraw (b : Byte) : (s.setSt b).redraw = s.redraw := rfl
@[simp] theorem State.setSt_mem (b : Byte) : (s.setSt b).mem = s.mem := rfl
@[simp] theorem State.setSt_fb (b : Byte) : (s.setSt b).fb = s.fb := rfl
@[simp] theorem State.setSt_keys (b : Byte) : (s.setSt b).keys = s.keys := rfl
@[simp] theorem State.setSt_fault (b : Byte) : (s.setSt b).fault = s.fault := rfl
@[simp] theorem State.setSt_diag (b : Byte) : (s.setSt b).diag = s.diag := rfl
@[simp] theorem State.setSt_randByte (b : Byte) : (s.setSt b).randByte = s.randByte := rfl
@[simp] theorem State.setSt_draws (b : Byte) : (s.setSt b).draws = s.draws := rfl
@[simp] theorem State.setSt_readV (b : Byte) (q : Reg) : (s.setSt b).readV q = s.readV q := rfl
@[simp] theorem State.setSt_readByte (b : Byte) (a' : Nat) : (s.setSt b).readByte a' = s.readByte a' := rfl

/-! ### `writeByte` -/

@[simp] theorem State.writeByte_v (a : Nat) (b : Byte) : (s.writeByte a b).v = s.v := rfl
@[simp] theorem State.writeByte_i (a : Nat) (b : Byte) : (s.writeByte a b).i = s.i := rfl
@[simp] theorem State.writeByte_pc (a : Nat) (b : Byte) : (s.writeByte a b).pc = s.pc := rfl
@[simp] theorem State.writeByte_sp (a : Nat) (b : Byte) : (s.writeByte a b).sp = s.sp := rfl
@[simp] theorem State.writeByte_stack (a : Nat) (b : Byte) : (s.writeByte a b).stack = s.stack := rfl
@[simp] theorem State.writeByte_dt (a : Nat) (b : Byte) : (s.writeByte a b).dt = s.dt := rfl
@[simp] theorem State.writeByte_st (a : Nat) (b : Byte) : (s.writeByte a b).st = s.st := rfl
@[simp] theorem State.writeByte_opcode (a : Nat) (b : Byte) : (s.writeByte a b).opcode = s.opcode := rfl
@[simp] theorem State.writeByte_redraw (a : Nat) (b : Byte) : (s.writeByte a b).redraw = s.redraw := rfl
@[simp] theorem State.writeByte_mem (a : Nat) (b : Byte) : (s.writeByte a b).mem = s.mem.write a b := rfl
@[simp] theorem State.writeByte_fb (a : Nat) (b : Byte) : (s.writeByte a b).fb = s.fb := rfl
@[simp] theorem State.writeByte_keys (a : Nat) (b : Byte) : (s.writeByte a b).keys = s.keys := rfl
@[simp] theorem State.writeByte_fault (a : Nat) (b : Byte) : (s.writeByte a b).fault = s.fault := rfl
@[simp] theorem State.writeByte_diag (a : Nat) (b : Byte) : (s.writeByte a b).diag = s.diag := rfl
@[simp] theorem State.writeByte_randByte (a : Nat) (b : Byte) : (s.writeByte a b).randByte = s.randByte := rfl
@[simp] theorem State.writeByte_draws (a : Nat) (b : Byte) : (s.writeByte a b).draws = s.draws := rfl
@[simp] theorem State.writeByte_readV (a : Nat) (b : Byte) (q : Reg) : (s.writeByte a b).readV q = s.readV q := rfl

/-! ### `pushPc` -/

@[simp] theorem State.pushPc_v (h : s.sp.val < 16) : (s.pushPc h).v = s.v := rfl
@[simp] theorem State.pushPc_i (h : s.sp.val < 16) : (s.pushPc h).i = s.i := rfl
@[simp] theorem State.pushPc_pc (h : s.sp.val < 16) : (s.pushPc h).pc = s.pc := rfl
@[simp] theorem State.pushPc_sp (h : s.sp.val < 16) : (s.pushPc h).sp = ⟨s.sp.val + 1, by omega⟩ := rfl
@[simp] theorem State.pushPc_stack (h : s.sp.val < 16) : (s.pushPc h).stack = s.stack.set s.sp.val s.pc := rfl
@[simp] theorem State.pushPc_dt (h : s.sp.val < 16) : (s.pushPc h).dt = s.dt := rfl
@[simp] theorem State.pushPc_st (h : s.sp.val < 16) : (s.pushPc h).st = s.st := rfl
@[simp] theorem State.pushPc_opcode (h : s.sp.val < 16) : (s.pushPc h).opcode = s.opcode := rfl
@[simp] theorem State.pushPc_redraw (h : s.sp.val < 16) : (s.pushPc h).redraw = s.redraw := rfl
@[simp] theorem State.pushPc_mem (h : s.sp.val < 16) : (s.pushPc h).mem = s.mem := rfl
@[simp] theorem State.pushPc_fb (h : s.sp.val < 16) : (s.pushPc h).fb = s.fb := rfl
@[simp] theorem State.pushPc_keys (h : s.sp.val < 16) : (s.pushPc h).keys = s.keys := rfl
@[simp] theorem State.pushPc_fault (h : s.sp.val < 16) : (s.pushPc h).fault = s.fault := rfl
@[simp] theorem State.pushPc_diag (h : s.sp.val < 16) : (s.pushPc h).diag = s.diag := rfl
@[simp] theorem State.pushPc_randByte (h : s.sp.val < 16) : (s.pushPc h).randByte = s.randByte := rfl
@[simp] theorem State.pushPc_draws (h : s.sp.val < 16) : (s.pushPc h).draws = s.draws := rfl
@[simp] theorem State.pushPc_readV (h : s.sp.val < 16) (q : Reg) : (s.pushPc h).readV q = s.readV q := rfl
@[simp] theorem State.pushPc_readByte (h : s.sp.val < 16) (a' : Nat) : (s.pushPc h).readByte a' = s.readByte a' := rfl

/-! ### `popSlot` -/

@[simp] theorem State.popSlot_v : (s.popSlot).v = s.v := rfl
@[simp] theorem State.popSlot_i : (s.popSlot).i = s.i := rfl
@[simp] theorem State.popSlot_pc : (s.popSlot).pc = s.pc := rfl
@[simp] theorem State.popSlot_sp : (s.popSlot).sp = ⟨s.sp.val - 1, by omega⟩ := rfl
@[simp] theorem State.popSlot_stack : (s.popSlot).stack = s.stack := rfl
@[simp] theorem State.popSlot_dt : (s.popSlot).dt = s.dt := rfl
@[simp] theorem State.popSlot_st : (s.popSlot).st = s.st := rfl
@[simp] theorem State.popSlot_opcode : (s.popSlot).opcode = s.opcode := rfl
@[simp] theorem State.popSlot_redraw : (s.popSlot).redraw = s.redraw := rfl
@[simp] theorem State.popSlot_mem : (s.popSlot).mem = s.mem := rfl
@[simp] theorem State.popSlot_fb : (s.popSlot).fb = s.fb := rfl
@[simp] theorem State.popSlot_keys : (s.popSlot).keys = s.keys := rfl
@[simp] theorem State.popSlot_fault : (s.popSlot).fault = s.fault := rfl
@[simp] theorem State.popSlot_diag : (s.popSlot).diag = s.diag := rfl
@[simp] theorem State.popSlot_randByte : (s.popSlot).randByte = s.randByte := rfl
@[simp] theorem State.popSlot_draws : (s.popSlot).draws = s.draws := rfl
@[simp] theorem State.popSlot_readV (q : Reg) : (s.popSlot).readV q = s.readV q := rfl
@[simp] theorem State.popSlot_readByte (a' : Nat) : (s.popSlot).readByte a' = s.readByte a' := rfl

/-! ### `showFb` -/

@[simp] theorem State.showFb_v (fb : Framebuffer) : (s.showFb fb).v = s.v := rfl
@[simp] theorem State.showFb_i (fb : Framebuffer) : (s.showFb fb).i = s.i := rfl
@[simp] theorem State.showFb_pc (fb : Framebuffer) : (s.showFb fb).pc = s.pc := rfl
@[simp] theorem State.showFb_sp (fb : Framebuffer) : (s.showFb fb).sp = s.sp := rfl
@[simp] theorem State.showFb_stack (fb : Framebuffer) : (s.showFb fb).stack = s.stack := rfl
@[simp] theorem State.showFb_dt (fb : Framebuffer) : (s.showFb fb).dt = s.dt := rfl
@[simp] theorem State.showFb_st (fb : Framebuffer) : (s.showFb fb).st = s.st := rfl
@[simp] theorem State.showFb_opcode (fb : Framebuffer) : (s.showFb fb).opcode = s.opcode := rfl
@[simp] theorem State.showFb_redraw (fb : Framebuffer) : (s.showFb fb).redraw = true := rfl
@[simp] theorem State.showFb_mem (fb : Framebuffer) : (s.showFb fb).mem = s.mem := rfl
@[simp] theorem State.showFb_fb (fb : Framebuffer) : (s.showFb fb).fb = fb := rfl
@[simp] theorem State.showFb_keys (fb : Framebuffer) : (s.showFb fb).keys = s.keys := rfl
@[simp] theorem State.showFb_fault (fb : Framebuffer) : (s.showFb fb).fault = s.fault := rfl
@[simp] theorem State.showFb_diag (fb : Framebuffer) : (s.showFb fb).diag = s.diag := rfl
@[simp] theorem State.showFb_randByte (fb : Framebuffer) : (s.showFb fb).randByte = s.randByte := rfl
@[simp] theorem State.showFb_draws (fb : Framebuffer) : (s.showFb fb).draws = s.draws := rfl
@[simp] theorem State.showFb_readV (fb : Framebuffer) (q : Reg) : (s.showFb fb).readV q = s.readV q := rfl
@[simp] theorem State.showFb_readByte (fb : Framebuffer) (a' : Nat) : (s.showFb fb).readByte a' = s.readByte a' := rfl

/-! ### `afterDraw` -/

@[simp] theorem State.afterDraw_v : (s.afterDraw).v = s.v := rfl
@[simp] theorem State.afterDraw_i : (s.afterDraw).i = s.i := rfl
@[simp] theorem State.afterDraw_pc : (s.afterDraw).pc = s.pc := rfl
@[simp] theorem State.afterDraw_sp : (s.afterDraw).sp = s.sp := rfl
@[simp] theorem State.afterDraw_stack : (s.afterDraw).stack = s.stack := rfl
@[simp] theorem State.afterDraw_dt : (s.afterDraw).dt = s.dt := rfl
@[simp] theorem State.afterDraw_st : (s.afterDraw).st = s.st := rfl
@[simp] theorem State.afterDraw_opcode : (s.afterDraw).opcode = s.opcode := rfl
@[simp] theorem State.afterDraw_redraw : (s.afterDraw).redraw = s.redraw := rfl
@[simp] theorem State.afterDraw_mem : (s.afterDraw).mem = s.mem := rfl
@[simp] theorem State.afterDraw_fb : (s.afterDraw).fb = s.fb := rfl
@[simp] theorem State.afterDraw_keys : (s.afterDraw).keys = s.keys := rfl
@[simp] theorem State.afterDraw_fault : (s.afterDraw).fault = s.fault := rfl
@[simp] theorem State.afterDraw_diag : (s.afterDraw).diag = s.diag := rfl
@[simp] theorem State.afterDraw_randByte : (s.afterDraw).randByte = none := rfl
@[simp] theorem State.afterDraw_draws : (s.afterDraw).draws = s.draws + 1 := rfl
@[simp] theorem State.afterDraw_readV (q : Reg) : (s.afterDraw).readV q = s.readV q := rfl
@[simp] theorem State.afterDraw_readByte (a' : Nat) : (s.afterDraw).readByte a' = s.readByte a' := rfl

/-! ### `withFault` -/

@[simp] theorem State.withFault_v (c : Fault) (o : Option Word) (n : Nat) : (s.withFault c o n).v = s.v := rfl
@[simp] theorem State.withFault_i (c : Fault) (o : Option Word) (n : Nat) : (s.withFault c o n).i = s.i := rfl
@[simp] theorem State.withFault_pc (c : Fault) (o : Option Word) (n : Nat) : (s.withFault c o n).pc = s.pc := rfl
@[simp] theorem State.withFault_sp (c : Fault) (o : Option Word) (n : Nat) : (s.withFault c o n).sp = s.sp := rfl
@[simp] theorem State.withFault_stack (c : Fault) (o : Option Word) (n : Nat) : (s.withFault c o n).stack = s.stack := rfl
@[simp] theorem State.withFault_dt (c : Fault) (o : Option Word) (n : Nat) : (s.withFault c o n).dt = s.dt := rfl
@[simp] theorem State.withFault_st (c : Fault) (o : Option Word) (n : Nat) : (s.withFault c o n).st = s.st := rfl
@[simp] theorem State.withFault_opcode (c : Fault) (o : Option Word) (n : Nat) : (s.withFault c o n).opcode = s.opcode := rfl
@[simp] theorem State.withFault_redraw (c : Fault) (o : Option Word) (n : Nat) : (s.withFault c o n).redraw = s.redraw := rfl
@[simp] theorem State.withFault_mem (c : Fault) (o : Option Word) (n : Nat) : (s.withFault c o n).mem = s.mem := rfl
@[simp] theorem State.withFault_fb (c : Fault) (o : Option Word) (n : Nat) : (s.withFault c o n).fb = s.fb := rfl
@[simp] theorem State.withFault_keys (c : Fault) (o : Option Word) (n : Nat) : (s.withFault c o n).keys = s.keys := rfl
@[simp] theorem State.withFault_fault (c : Fault) (o : Option Word) (n : Nat) : (s.withFault c o n).fault = some { cause := c, pc := s.pc, opcode := o, info := n } := rfl
@[simp] theorem State.withFault_diag (c : Fault) (o : Option Word) (n : Nat) : (s.withFault c o n).diag = s.diag := rfl
@[simp] theorem State.withFault_randByte (c : Fault) (o : Option Word) (n : Nat) : (s.withFault c o n).randByte = s.randByte := rfl
@[simp] theorem State.withFault_draws (c : Fault) (o : Option Word) (n : Nat) : (s.withFault c o n).draws = s.draws := rfl
@[simp] theorem State.withFault_readV (c : Fault) (o : Option Word) (n : Nat) (q : Reg) : (s.withFault c o n).readV q = s.readV q := rfl
@[simp] theorem State.withFault_readByte (c : Fault) (o : Option Word) (n : Nat) (a' : Nat) : (s.withFault c o n).readByte a' = s.readByte a' := rfl

/-! ### `emitUnknown` -/

@[simp] theorem State.emitUnknown_v : (s.emitUnknown).v = s.v := rfl
@[simp] theorem State.emitUnknown_i : (s.emitUnknown).i = s.i := rfl
@[simp] theorem State.emitUnknown_pc : (s.emitUnknown).pc = s.pc := rfl
@[simp] theorem State.emitUnknown_sp : (s.emitUnknown).sp = s.sp := rfl
@[simp] theorem State.emitUnknown_stack : (s.emitUnknown).stack = s.stack := rfl
@[simp] theorem State.emitUnknown_dt : (s.emitUnknown).dt = s.dt := rfl
@[simp] theorem State.emitUnknown_st : (s.emitUnknown).st = s.st := rfl
@[simp] theorem State.emitUnknown_opcode : (s.emitUnknown).opcode = s.opcode := rfl
@[simp] theorem State.emitUnknown_redraw : (s.emitUnknown).redraw = s.redraw := rfl
@[simp] theorem State.emitUnknown_mem : (s.emitUnknown).mem = s.mem := rfl
@[simp] theorem State.emitUnknown_fb : (s.emitUnknown).fb = s.fb := rfl
@[simp] theorem State.emitUnknown_keys : (s.emitUnknown).keys = s.keys := rfl
@[simp] theorem State.emitUnknown_fault : (s.emitUnknown).fault = s.fault := rfl
@[simp] theorem State.emitUnknown_diag : (s.emitUnknown).diag = some { opcode := s.opcode, pc := s.pc } := rfl
@[simp] theorem State.emitUnknown_randByte : (s.emitUnknown).randByte = s.randByte := rfl
@[simp] theorem State.emitUnknown_draws : (s.emitUnknown).draws = s.draws := rfl
@[simp] theorem State.emitUnknown_readV (q : Reg) : (s.emitUnknown).readV q = s.readV q := rfl
@[simp] theorem State.emitUnknown_readByte (a' : Nat) : (s.emitUnknown).readByte a' = s.readByte a' := rfl

/-! ### `clearDiag` -/

@[simp] theorem State.clearDiag_v : (s.clearDiag).v = s.v := rfl
@[simp] theorem State.clearDiag_i : (s.clearDiag).i = s.i := rfl
@[simp] theorem State.clearDiag_pc : (s.clearDiag).pc = s.pc := rfl
@[simp] theorem State.clearDiag_sp : (s.clearDiag).sp = s.sp := rfl
@[simp] theorem State.clearDiag_stack : (s.clearDiag).stack = s.stack := rfl
@[simp] theorem State.clearDiag_dt : (s.clearDiag).dt = s.dt := rfl
@[simp] theorem State.clearDiag_st : (s.clearDiag).st = s.st := rfl
@[simp] theorem State.clearDiag_opcode : (s.clearDiag).opcode = s.opcode := rfl
@[simp] theorem State.clearDiag_redraw : (s.clearDiag).redraw = s.redraw := rfl
@[simp] theorem State.clearDiag_mem : (s.clearDiag).mem = s.mem := rfl
@[simp] theorem State.clearDiag_fb : (s.clearDiag).fb = s.fb := rfl
@[simp] theorem State.clearDiag_keys : (s.clearDiag).keys = s.keys := rfl
@[simp] theorem State.clearDiag_fault : (s.clearDiag).fault = s.fault := rfl
@[simp] theorem State.clearDiag_diag : (s.clearDiag).diag = none := rfl
@[simp] theorem State.clearDiag_randByte : (s.clearDiag).randByte = s.randByte := rfl
@[simp] theorem State.clearDiag_draws : (s.clearDiag).draws = s.draws := rfl
@[simp] theorem State.clearDiag_readV (q : Reg) : (s.clearDiag).readV q = s.readV q := rfl
@[simp] theorem State.clearDiag_readByte (a' : Nat) : (s.clearDiag).readByte a' = s.readByte a' := rfl

/-! ### `timerTick` -/

@[simp] theorem State.timerTick_v : (s.timerTick).v = s.v := rfl
@[simp] theorem State.timerTick_i : (s.timerTick).i = s.i := rfl
@[simp] theorem State.timerTick_pc : (s.timerTick).pc = s.pc := rfl
@[simp] theorem State.timerTick_sp : (s.timerTick).sp = s.sp := rfl
@[simp] theorem State.timerTick_stack : (s.timerTick).stack = s.stack := rfl
@[simp] theorem State.timerTick_dt : (s.timerTick).dt = tickByte s.dt := rfl
@[simp] theorem State.timerTick_st : (s.timerTick).st = tickByte s.st := rfl
@[simp] theorem State.timerTick_opcode : (s.timerTick).opcode = s.opcode := rfl
@[simp] theorem State.timerTick_redraw : (s.timerTick).redraw = s.redraw := rfl
@[simp] theorem State.timerTick_mem : (s.timerTick).mem = s.mem := rfl
@[simp] theorem State.timerTick_fb : (s.timerTick).fb = s.fb := rfl
@[simp] theorem State.timerTick_keys : (s.timerTick).keys = s.keys := rfl
@[simp] theorem State.timerTick_fault : (s.timerTick).fault = s.fault := rfl
@[simp] theorem State.timerTick_diag : (s.timerTick).diag = s.diag := rfl
@[simp] theorem State.timerTick_randByte : (s.timerTick).randByte = s.randByte := rfl
@[simp] theorem State.timerTick_draws : (s.timerTick).draws = s.draws := rfl
@[simp] theorem State.timerTick_readV (q : Reg) : (s.timerTick).readV q = s.readV q := rfl
@[simp] theorem State.timerTick_readByte (a' : Nat) : (s.timerTick).readByte a' = s.readByte a' := rfl

/-! ### `latch` -/

@[simp] theorem State.latch_v (bs : List Byte) : (s.latch bs).v = s.v := rfl
@[simp] theorem State.latch_i (bs : List Byte) : (s.latch bs).i = s.i := rfl
@[simp] theorem State.latch_pc (bs : List Byte) : (s.latch bs).pc = s.pc := rfl
@[simp] theorem State.latch_sp (bs : List Byte) : (s.latch bs).sp = s.sp := rfl
@[simp] theorem State.latch_stack (bs : List Byte) : (s.latch bs).stack = s.stack := rfl
@[simp] theorem State.latch_dt (bs : List Byte) : (s.latch bs).dt = s.dt := rfl
@[simp] theorem State.latch_st (bs : List Byte) : (s.latch bs).st = s.st := rfl
@[simp] theorem State.latch_redraw (bs : List Byte) : (s.latch bs).redraw = s.redraw := rfl
@[simp] theorem State.latch_mem (bs : List Byte) : (s.latch bs).mem = s.mem := rfl
@[simp] theorem State.latch_fb (bs : List Byte) : (s.latch bs).fb = s.fb := rfl
@[simp] theorem State.latch_keys (bs : List Byte) : (s.latch bs).keys = s.keys := rfl
@[simp] theorem State.latch_fault (bs : List Byte) : (s.latch bs).fault = s.fault := rfl
@[simp] theorem State.latch_diag (bs : List Byte) : (s.latch bs).diag = none := rfl
@[simp] theorem State.latch_randByte (bs : List Byte) : (s.latch bs).randByte = s.randByte := rfl
@[simp] theorem State.latch_draws (bs : List Byte) : (s.latch bs).draws = s.draws := rfl
@[simp] theorem State.latch_readV (bs : List Byte) (q : Reg) : (s.latch bs).readV q = s.readV q := rfl
@[simp] theorem State.latch_readByte (bs : List Byte) (a' : Nat) : (s.latch bs).readByte a' = s.readByte a' := rfl

/-! ### `fetchFault` -/

@[simp] theorem State.fetchFault_v : (s.fetchFault).v = s.v := rfl
@[simp] theorem State.fetchFault_i : (s.fetchFault).i = s.i := rfl
@[simp] theorem State.fetchFault_pc : (s.fetchFault).pc = s.pc := rfl
@[simp] theorem State.fetchFault_sp : (s.fetchFault).sp = s.sp := rfl
@[simp] theorem State.fetchFault_stack : (s.fetchFault).stack = s.stack := rfl
@[simp] theorem State.fetchFault_dt : (s.fetchFault).dt = s.dt := rfl
@[simp] theorem State.fetchFault_st : (s.fetchFault).st = s.st := rfl
@[simp] theorem State.fetchFault_opcode : (s.fetchFault).opcode = s.opcode := rfl
@[simp] theorem State.fetchFault_redraw : (s.fetchFault).redraw = s.redraw := rfl
@[simp] theorem State.fetchFault_mem : (s.fetchFault).mem = s.mem := rfl
@[simp] theorem State.fetchFault_fb : (s.fetchFault).fb = s.fb := rfl
@[simp] theorem State.fetchFault_keys : (s.fetchFault).keys = s.keys := rfl
@[simp] theorem State.fetchFault_fault : (s.fetchFault).fault = some { cause := .fetchOutOfRange, pc := s.pc, opcode := none, info := s.pc.toNat } := rfl
@[simp] theorem State.fetchFault_diag : (s.fetchFault).diag = none := rfl
@[simp] theorem State.fetchFault_randByte : (s.fetchFault).randByte = s.randByte := rfl
@[simp] theorem State.fetchFault_draws : (s.fetchFault).draws = s.draws := rfl
@[simp] theorem State.fetchFault_readV (q : Reg) : (s.fetchFault).readV q = s.readV q := rfl
@[simp] theorem State.fetchFault_readByte (a' : Nat) : (s.fetchFault).readByte a' = s.readByte a' := rfl

/-! ### `skipIf`, the latch, and reading a register after a write -/

@[simp] theorem State.latch_opcode (hi lo : Byte) (rest : List Byte) :
    (s.latch (hi :: lo :: rest)).opcode = wordOfBytes hi lo := rfl

/-- Only `pc` depends on whether the skip is taken. -/
theorem State.skipIf_eq (taken : Bool) :
    s.skipIf taken = s.setPc (s.pc + if taken then 4#16 else 2#16) := by
  cases taken <;> rfl

@[simp] theorem State.writeV_readV_same (r : Reg) (b : Byte) : (s.writeV r b).readV r = b := by
  simp [State.readV, State.writeV]

theorem State.writeV_readV (r q : Reg) (b : Byte) :
    (s.writeV r b).readV q = if q = r then b else s.readV q := by
  have h : (r : Nat) = q ↔ q = r := by rw [Fin.ext_iff]; exact eq_comm
  simp only [State.readV, State.writeV, Fin.getElem_fin, Vector.getElem_set, h]

theorem State.writeV_readV_other {r q : Reg} (b : Byte) (h : q ≠ r) : (s.writeV r b).readV q = s.readV q := by
  rw [State.writeV_readV, if_neg h]

/-- A state with the same registers read one by one has the same registers. -/
theorem State.v_ext {s t : State} (h : ∀ r, t.readV r = s.readV r) : t.v = s.v :=
  Vector.ext fun k hk => h ⟨k, hk⟩

/-- A faulted step does not tick, and any other does (60_exceptions.md R230). -/
theorem State.finish_eq : s.finish = if s.fault.isSome then s else s.timerTick := rfl

theorem State.finish_of_running {s : State} (h : s.fault = none) : s.finish = s.timerTick := by
  simp [State.finish, h]

theorem State.finish_of_fault {s : State} {r : FaultRecord} (h : s.fault = some r) : s.finish = s := by
  simp [State.finish, h]

end Sys2Proof.Machine
end

