-- ==== Sys2Proof/Laws/Memory.lean ====
section
/-! SUPPORT. Memory: reading after writing, and every operation keeps the canonical form. -/

namespace Sys2Proof.Machine

/-! ### The list of cells -/

theorem cellAt_cellPut (cs : List Host.Cell) (a b : Nat) (v : Byte) :
    cellAt (cellPut cs a v) b = if b = a then some v else cellAt cs b := by
  induction cs with
  | nil => simp [cellPut, cellAt]
  | cons c rest ih =>
    obtain ⟨k, w⟩ := c
    simp only [cellPut]
    split
    · simp [cellAt]
    · split
      · subst k; simp only [cellAt]; split <;> simp_all
      · simp only [cellAt, ih]
        by_cases hb : b = k
        · subst hb; rw [if_pos rfl, if_neg (by omega), if_pos rfl]
        · rw [if_neg hb, if_neg hb]

theorem cellAt_cellErase (cs : List Host.Cell) (a b : Nat) :
    cellAt (cellErase cs a) b = if b = a then none else cellAt cs b := by
  induction cs with
  | nil => simp [cellErase, cellAt]
  | cons c rest ih =>
    obtain ⟨k, w⟩ := c
    simp only [cellErase]
    split
    · subst k; simp only [ih, cellAt]; split <;> simp_all
    · simp only [cellAt, ih]
      by_cases hb : b = k
      · subst hb; rw [if_pos rfl, if_neg (by omega), if_pos rfl]
      · rw [if_neg hb, if_neg hb]

theorem cellsRise_mono {cs : List Host.Cell} {low low' : Nat} (h : cellsRise low cs = true) (hl : low' ≤ low) :
    cellsRise low' cs = true := by
  cases cs with
  | nil => rfl
  | cons c rest =>
    simp only [cellsRise, Bool.and_eq_true, decide_eq_true_eq] at h ⊢
    exact ⟨by omega, h.2⟩

theorem cellsRise_cellPut {cs : List Host.Cell} {low a : Nat} (v : Byte) (h : cellsRise low cs = true)
    (ha : low ≤ a) : cellsRise low (cellPut cs a v) = true := by
  induction cs generalizing low with
  | nil => simp [cellPut, cellsRise, ha]
  | cons c rest ih =>
    obtain ⟨k, w⟩ := c
    simp only [cellsRise, Bool.and_eq_true, decide_eq_true_eq] at h
    simp only [cellPut]
    split
    · simp only [cellsRise, Bool.and_eq_true, decide_eq_true_eq]; exact ⟨ha, by omega, h.2⟩
    · split
      · subst k; simp only [cellsRise, Bool.and_eq_true, decide_eq_true_eq]; exact ⟨ha, h.2⟩
      · simp only [cellsRise, Bool.and_eq_true, decide_eq_true_eq]
        exact ⟨h.1, ih h.2 (by omega)⟩

theorem cellsRise_cellErase {cs : List Host.Cell} {low a : Nat} (h : cellsRise low cs = true) :
    cellsRise low (cellErase cs a) = true := by
  induction cs generalizing low with
  | nil => rfl
  | cons c rest ih =>
    obtain ⟨k, w⟩ := c
    simp only [cellsRise, Bool.and_eq_true, decide_eq_true_eq] at h
    simp only [cellErase]
    split
    · exact cellsRise_mono (ih h.2) (by omega)
    · simp only [cellsRise, Bool.and_eq_true, decide_eq_true_eq]; exact ⟨h.1, ih h.2⟩

theorem mem_cellPut {cs : List Host.Cell} {a : Nat} {v : Byte} {c : Host.Cell} (h : c ∈ cellPut cs a v) :
    c = (a, v) ∨ c ∈ cs := by
  induction cs with
  | nil => simpa [cellPut] using h
  | cons d rest ih =>
    obtain ⟨k, w⟩ := d
    simp only [cellPut] at h
    split at h
    · simpa using h
    · split at h
      · rcases List.mem_cons.1 h with h | h
        · exact .inl h
        · exact .inr (List.mem_cons_of_mem _ h)
      · rcases List.mem_cons.1 h with h | h
        · exact .inr (h ▸ List.mem_cons_self ..)
        · exact (ih h).imp id (List.mem_cons_of_mem _)

theorem mem_cellErase {cs : List Host.Cell} {a : Nat} {c : Host.Cell} (h : c ∈ cellErase cs a) : c ∈ cs := by
  induction cs with
  | nil => exact h
  | cons d rest ih =>
    obtain ⟨k, w⟩ := d
    simp only [cellErase] at h
    split at h
    · exact List.mem_cons_of_mem _ (ih h)
    · rcases List.mem_cons.1 h with h | h
      · exact h ▸ List.mem_cons_self ..
      · exact List.mem_cons_of_mem _ (ih h)

/-- Below the addresses of a rising list nothing is listed. -/
theorem cellAt_below {cs : List Host.Cell} {low a : Nat} (h : cellsRise low cs = true) (ha : a < low) :
    cellAt cs a = none := by
  induction cs generalizing low with
  | nil => rfl
  | cons c rest ih =>
    obtain ⟨k, w⟩ := c
    simp only [cellsRise, Bool.and_eq_true, decide_eq_true_eq] at h
    simp only [cellAt]
    rw [if_neg (by omega)]
    exact ih h.2 (by omega)

/-! ### Memory -/

@[simp] theorem Memory.write_font (m : Memory) (a : Nat) (v : Byte) : (m.write a v).font = m.font := by
  simp only [Memory.write]; split <;> rfl

@[simp] theorem Memory.write_initialByte (m : Memory) (a b : Nat) (v : Byte) :
    (m.write a v).initialByte b = m.initialByte b := by
  simp [Memory.initialByte]

/-- Reading one byte after a write. -/
theorem Memory.read_write (m : Memory) (a b : Nat) (v : Byte) :
    (m.write a v).read b = if b = a ∧ a < 4096 then v else m.read b := by
  rw [Memory.read, Memory.write_initialByte, Memory.write]
  by_cases ha : a < 4096
  · rw [if_pos ha]
    by_cases hv : v = m.initialByte a
    · simp only [if_pos hv, cellAt_cellErase]
      by_cases hb : b = a
      · subst hb; simp [ha, hv]
      · simp [hb, Memory.read]
    · simp only [if_neg hv, cellAt_cellPut]
      by_cases hb : b = a
      · subst hb; simp [ha]
      · simp [hb, Memory.read]
  · simp [ha, Memory.read]

/-- A write lands (20_memory.md R55). -/
theorem Memory.read_write_same (m : Memory) {a : Nat} (v : Byte) (ha : a < 4096) : (m.write a v).read a = v := by
  simp [Memory.read_write, ha]

/-- "A write changes only its own byte" (20_memory.md R55). -/
theorem Memory.read_write_other (m : Memory) {a b : Nat} (v : Byte) (hb : b ≠ a) :
    (m.write a v).read b = m.read b := by
  simp [Memory.read_write, hb]

/-- The canonical form, as what it says of the cells. -/
theorem Memory.wf_iff (m : Memory) :
    m.wf = true ↔ cellsRise 0 m.cells = true ∧ ∀ c ∈ m.cells, c.1 < 4096 ∧ c.2 ≠ m.initialByte c.1 := by
  simp [Memory.wf, List.all_eq_true]

/-- Every write keeps the canonical form. -/
theorem Memory.write_wf {m : Memory} (h : m.wf = true) (a : Nat) (v : Byte) : (m.write a v).wf = true := by
  have ⟨hr, hc⟩ := (Memory.wf_iff m).1 h
  rw [Memory.wf_iff]
  simp only [Memory.write_initialByte]
  rw [Memory.write]
  by_cases ha : a < 4096
  · rw [if_pos ha]
    by_cases hv : v = m.initialByte a
    · simp only [if_pos hv]
      exact ⟨cellsRise_cellErase hr, fun c h' => hc c (mem_cellErase h')⟩
    · simp only [if_neg hv]
      refine ⟨cellsRise_cellPut v hr (Nat.zero_le _), fun c h' => ?_⟩
      rcases mem_cellPut h' with rfl | h'
      · exact ⟨ha, hv⟩
      · exact hc c h'
  · rw [if_neg ha]; exact ⟨hr, hc⟩

/-- What `init` leaves is in canonical form: nothing is listed. -/
theorem Memory.initial_wf (font : Font) : Memory.wf { font := font, cells := [] } = true := rfl

/-! ### The state's memory -/

theorem State.readByte_eq (s : State) (a : Nat) : s.mem.read a = s.readByte a := rfl

theorem State.readByte_writeByte (s : State) (a b : Nat) (v : Byte) :
    (s.writeByte a v).readByte b = if b = a ∧ a < 4096 then v else s.readByte b :=
  Memory.read_write s.mem a b v

end Sys2Proof.Machine
end

