-- ==== Sys2Proof/Laws/Boundary.lean ====
section
/-! SUPPORT. The image copy of `load`, and one event of a run. -/

namespace Sys2Proof.Machine

/-- The image copy touches memory alone. -/
theorem State.storeImage_frame (s : State) (a : Nat) (image : List Byte) :
    s.storeImage a image = { s with mem := (s.storeImage a image).mem } := by
  induction image generalizing s a with
  | nil => rfl
  | cons b rest ih => simp only [State.storeImage]; rw [ih]; rfl

@[simp] theorem State.storeImage_font (s : State) (a : Nat) (image : List Byte) :
    (s.storeImage a image).mem.font = s.mem.font := by
  induction image generalizing s a with
  | nil => rfl
  | cons b rest ih => simp [State.storeImage, ih]

theorem State.storeImage_wf (s : State) (a : Nat) (image : List Byte) (h : s.mem.wf = true) :
    (s.storeImage a image).mem.wf = true := by
  induction image generalizing s a with
  | nil => exact h
  | cons b rest ih => exact ih _ _ (Memory.write_wf h a b)

/-- Every byte after the image copy, where it stays in memory. -/
theorem State.storeImage_readByte (s : State) (a : Nat) (image : List Byte) (h : a + image.length ≤ 4096)
    (c : Nat) :
    (s.storeImage a image).readByte c =
      if hc : a ≤ c ∧ c < a + image.length then image[c - a]'(by omega) else s.readByte c := by
  induction image generalizing s a with
  | nil => simp [State.storeImage]
  | cons b rest ih =>
    simp only [List.length_cons] at h
    simp only [State.storeImage]
    rw [ih _ _ (by omega), State.readByte_writeByte]
    by_cases hca : c = a
    · subst hca
      rw [dif_neg (by omega), if_pos ⟨rfl, by omega⟩, dif_pos (by simp)]
      simp
    · by_cases hc : a + 1 ≤ c ∧ c < a + 1 + rest.length
      · rw [dif_pos hc, dif_pos (by simp only [List.length_cons]; omega)]
        have : c - a = c - (a + 1) + 1 := by omega
        simp only [this, List.getElem_cons_succ]
      · rw [dif_neg hc, if_neg (by omega), dif_neg (by simp only [List.length_cons]; omega)]

/-- The inversion of a run that answers a state. -/
theorem runEvents_cons {e : Event} {rest : List Event} {s t : State} :
    runEvents (e :: rest) s = .next t ↔ ∃ u, event e s = .next u ∧ runEvents rest u = .next t := by
  simp only [runEvents]
  cases event e s with
  | next u => exact ⟨fun h => ⟨u, rfl, h⟩, fun ⟨_, h, h'⟩ => by cases h; exact h'⟩
  | fault r => constructor <;> intro h <;> simp at h
  | refused r => constructor <;> intro h <;> simp at h

/-- What every state of a run satisfies: a property that each event keeps. -/
theorem runEvents_induction {P : State → Prop} (keep : ∀ e s t, P s → event e s = .next t → P t)
    {events : List Event} {s t : State} (hs : P s) (h : runEvents events s = .next t) : P t := by
  induction events generalizing s with
  | nil => cases h; exact hs
  | cons e rest ih =>
    obtain ⟨u, hu, hr⟩ := runEvents_cons.1 h
    exact ih (keep e s u hs hu) hr

end Sys2Proof.Machine
end

