-- ==== Sys2Proof/Laws/Decode.lean ====
section
/-! SUPPORT. The fields of a formatted word are the fields it was made of, and a word is made of its fields. -/

namespace Sys2Proof

/-! ### The fields of a word, as numbers -/

theorem fieldG_toNat (w : Word) : (fieldG w).toNat = w.toNat / 4096 := by
  have := w.isLt
  simp only [fieldG, BitVec.extractLsb'_toNat, Nat.shiftRight_eq_div_pow]; omega

theorem fieldX_toNat (w : Word) : (fieldX w).toNat = w.toNat / 256 % 16 := by
  simp only [fieldX, BitVec.extractLsb'_toNat, Nat.shiftRight_eq_div_pow, Nat.reducePow]

theorem fieldY_toNat (w : Word) : (fieldY w).toNat = w.toNat / 16 % 16 := by
  simp only [fieldY, BitVec.extractLsb'_toNat, Nat.shiftRight_eq_div_pow, Nat.reducePow]

theorem fieldN_toNat (w : Word) : (fieldN w).toNat = w.toNat % 16 := by
  simp only [fieldN, BitVec.extractLsb'_toNat, Nat.shiftRight_eq_div_pow]; norm_num

theorem fieldNN_toNat (w : Word) : (fieldNN w).toNat = w.toNat % 256 := by
  simp only [fieldNN, BitVec.extractLsb'_toNat, Nat.shiftRight_eq_div_pow]; norm_num

theorem fieldNNN_toNat (w : Word) : (fieldNNN w).toNat = w.toNat % 4096 := by
  simp only [fieldNNN, BitVec.extractLsb'_toNat, Nat.shiftRight_eq_div_pow]; norm_num

/-! ### The formats, as numbers -/

theorem append_toNat {m n : Nat} (a : BitVec m) (b : BitVec n) : (a ++ b).toNat = a.toNat * 2 ^ n + b.toNat := by
  rw [BitVec.toNat_append, Nat.shiftLeft_eq, Nat.mul_comm, ← Nat.two_pow_add_eq_or_of_lt b.isLt]

theorem fmtNNN_toNat (g : Nibble) (nnn : Addr12) : (fmtNNN g nnn).toNat = g.toNat * 4096 + nnn.toNat :=
  append_toNat g nnn

theorem fmtXNN_toNat (g x : Nibble) (nn : Byte) :
    (fmtXNN g x nn).toNat = g.toNat * 4096 + x.toNat * 256 + nn.toNat := by
  rw [Nat.add_assoc]
  exact (append_toNat g _).trans (congrArg (g.toNat * 4096 + ·) (append_toNat x nn))

theorem fmtXYN_toNat (g x y n : Nibble) :
    (fmtXYN g x y n).toNat = g.toNat * 4096 + x.toNat * 256 + y.toNat * 16 + n.toNat := by
  rw [Nat.add_assoc, Nat.add_assoc]
  refine (append_toNat g _).trans (congrArg (g.toNat * 4096 + ·) ((append_toNat x _).trans ?_))
  exact congrArg (x.toNat * 256 + ·) (append_toNat y n)

/-! ### The fields of a formatted word -/

section
variable (g x y n : Nibble) (nn : Byte) (nnn : Addr12)

@[simp] theorem fieldG_fmtNNN : fieldG (fmtNNN g nnn) = g := by
  have := g.isLt; have := nnn.isLt; apply BitVec.eq_of_toNat_eq; rw [fieldG_toNat, fmtNNN_toNat]; omega
@[simp] theorem fieldNNN_fmtNNN : fieldNNN (fmtNNN g nnn) = nnn := by
  have := g.isLt; have := nnn.isLt; apply BitVec.eq_of_toNat_eq; rw [fieldNNN_toNat, fmtNNN_toNat]; omega
@[simp] theorem fieldG_fmtXNN : fieldG (fmtXNN g x nn) = g := by
  have := x.isLt; have := nn.isLt; apply BitVec.eq_of_toNat_eq; rw [fieldG_toNat, fmtXNN_toNat]; omega
@[simp] theorem fieldX_fmtXNN : fieldX (fmtXNN g x nn) = x := by
  have := x.isLt; have := nn.isLt; apply BitVec.eq_of_toNat_eq; rw [fieldX_toNat, fmtXNN_toNat]; omega
@[simp] theorem fieldNN_fmtXNN : fieldNN (fmtXNN g x nn) = nn := by
  have := x.isLt; have := nn.isLt; apply BitVec.eq_of_toNat_eq; rw [fieldNN_toNat, fmtXNN_toNat]; omega
@[simp] theorem fieldG_fmtXYN : fieldG (fmtXYN g x y n) = g := by
  have := x.isLt; have := y.isLt; have := n.isLt
  apply BitVec.eq_of_toNat_eq; rw [fieldG_toNat, fmtXYN_toNat]; omega
@[simp] theorem fieldX_fmtXYN : fieldX (fmtXYN g x y n) = x := by
  have := x.isLt; have := y.isLt; have := n.isLt
  apply BitVec.eq_of_toNat_eq; rw [fieldX_toNat, fmtXYN_toNat]; omega
@[simp] theorem fieldY_fmtXYN : fieldY (fmtXYN g x y n) = y := by
  have := x.isLt; have := y.isLt; have := n.isLt
  apply BitVec.eq_of_toNat_eq; rw [fieldY_toNat, fmtXYN_toNat]; omega
@[simp] theorem fieldN_fmtXYN : fieldN (fmtXYN g x y n) = n := by
  have := x.isLt; have := y.isLt; have := n.isLt
  apply BitVec.eq_of_toNat_eq; rw [fieldN_toNat, fmtXYN_toNat]; omega

end

/-! ### A word from its fields -/

theorem fmtNNN_fields (w : Word) : fmtNNN (fieldG w) (fieldNNN w) = w := by
  apply BitVec.eq_of_toNat_eq; rw [fmtNNN_toNat, fieldG_toNat, fieldNNN_toNat]; omega

theorem fmtXNN_fields (w : Word) : fmtXNN (fieldG w) (fieldX w) (fieldNN w) = w := by
  apply BitVec.eq_of_toNat_eq; rw [fmtXNN_toNat, fieldG_toNat, fieldX_toNat, fieldNN_toNat]; omega

theorem fmtXYN_fields (w : Word) : fmtXYN (fieldG w) (fieldX w) (fieldY w) (fieldN w) = w := by
  apply BitVec.eq_of_toNat_eq; rw [fmtXYN_toNat, fieldG_toNat, fieldX_toNat, fieldY_toNat, fieldN_toNat]; omega

/-! ### Masks -/

/-- Masking a formatted word masks its fields. -/
theorem fmtXYN_and (g x y n g' x' y' n' : Nibble) :
    fmtXYN g x y n &&& fmtXYN g' x' y' n' = fmtXYN (g &&& g') (x &&& x') (y &&& y') (n &&& n') := by
  simp only [fmtXYN]
  exact BitVec.and_append.trans (congrArg (_ ++ ·) (BitVec.and_append.trans (congrArg (_ ++ ·) BitVec.and_append)))

theorem fmtXYN_inj {g x y n g' x' y' n' : Nibble} :
    fmtXYN g x y n = fmtXYN g' x' y' n' ↔ g = g' ∧ x = x' ∧ y = y' ∧ n = n' := by
  constructor
  · intro h
    have hg := congrArg fieldG h
    have hx := congrArg fieldX h
    have hy := congrArg fieldY h
    have hn := congrArg fieldN h
    simp only [fieldG_fmtXYN, fieldX_fmtXYN, fieldY_fmtXYN, fieldN_fmtXYN] at hg hx hy hn
    exact ⟨hg, hx, hy, hn⟩
  · rintro ⟨rfl, rfl, rfl, rfl⟩; rfl

/-- A row of the opcode map compares the four nibbles of a word one by one. -/
theorem OpcodeRow.hits_iff_fields (r : OpcodeRow) (w : Word) :
    r.hits w = true ↔
      fieldG w &&& fieldG r.mask = fieldG r.matchBits ∧ fieldX w &&& fieldX r.mask = fieldX r.matchBits ∧
        fieldY w &&& fieldY r.mask = fieldY r.matchBits ∧ fieldN w &&& fieldN r.mask = fieldN r.matchBits := by
  rw [OpcodeRow.hits, beq_iff_eq]
  conv_lhs => rw [← fmtXYN_fields w, ← fmtXYN_fields r.mask, ← fmtXYN_fields r.matchBits]
  rw [fmtXYN_and, fmtXYN_inj]

/-! ### Registers and bytes -/

@[simp] theorem regOf_regBits (r : Reg) : regOf (regBits r) = r := rfl
@[simp] theorem regBits_regOf (b : Nibble) : regBits (regOf b) = b := rfl

theorem wordOfBytes_toNat (hi lo : Byte) : (wordOfBytes hi lo).toNat = hi.toNat * 256 + lo.toNat :=
  append_toNat hi lo

theorem hiByte_toNat (w : Word) : (hiByte w).toNat = w.toNat / 256 := by
  have := w.isLt
  simp only [hiByte, BitVec.extractLsb'_toNat, Nat.shiftRight_eq_div_pow]; omega

theorem loByte_toNat (w : Word) : (loByte w).toNat = w.toNat % 256 := by
  simp only [loByte, BitVec.extractLsb'_toNat, Nat.shiftRight_eq_div_pow]; norm_num

@[simp] theorem wordOfBytes_split (w : Word) : wordOfBytes (hiByte w) (loByte w) = w := by
  apply BitVec.eq_of_toNat_eq; rw [wordOfBytes_toNat, hiByte_toNat, loByte_toNat]; omega

@[simp] theorem hiByte_wordOfBytes (hi lo : Byte) : hiByte (wordOfBytes hi lo) = hi := by
  have := lo.isLt; apply BitVec.eq_of_toNat_eq; rw [hiByte_toNat, wordOfBytes_toNat]; omega

@[simp] theorem loByte_wordOfBytes (hi lo : Byte) : loByte (wordOfBytes hi lo) = lo := by
  have := lo.isLt; apply BitVec.eq_of_toNat_eq; rw [loByte_toNat, wordOfBytes_toNat]; omega

/-- The decoder on two bytes is the decoder on their word. -/
@[simp] theorem decode_pair (hi lo : Byte) (rest : List Byte) :
    decode (hi :: lo :: rest) = .ok (decodeWord (wordOfBytes hi lo)) rest := rfl

/-- The group handlers answer, for a selector they define, an instruction of the group, and else the unknown arm. -/
theorem decodeGroup0_unknown {x : Nibble} {nn : Byte} (h : group0Defined.contains nn = false) :
    decodeGroup0 x nn = .unknown0 x nn := by
  simp [group0Defined] at h; simp [decodeGroup0, h]

theorem decodeGroup8_unknown {x y k : Nibble} (h : group8Defined.contains k = false) :
    decodeGroup8 x y k = .unknown8 x y k := by
  simp [group8Defined] at h; simp [decodeGroup8, h]

theorem decodeGroupE_unknown {x : Nibble} {nn : Byte} (h : groupEDefined.contains nn = false) :
    decodeGroupE x nn = .unknownE x nn := by
  simp [groupEDefined] at h; simp [decodeGroupE, h]

theorem decodeGroupF_unknown {x : Nibble} {nn : Byte} (h : groupFDefined.contains nn = false) :
    decodeGroupF x nn = .unknownF x nn := by
  simp [groupFDefined] at h; simp [decodeGroupF, h]

end Sys2Proof
end

