-- ==== Sys2Proof/Laws/Operands.lean ====
section
/-! SUPPORT. The operand forms: the range check, the key scan, and the two transfer loops. -/

namespace Sys2Proof.Machine

/-! ### The range check -/

/-- The range check in closed form: the lowest offender is the base, or 0x1000. -/
theorem firstOutOfRange_eq (base n : Nat) :
    firstOutOfRange base n = if n = 0 ∨ base + n ≤ 4096 then none else some (max base 4096) := by
  induction n with
  | zero => simp [firstOutOfRange]
  | succ n ih =>
    simp only [firstOutOfRange, ih]
    by_cases h : n = 0 ∨ base + n ≤ 4096
    · simp only [if_pos h, Option.none_or]
      by_cases h' : base + n > 0xFFF
      · rw [if_pos h', if_neg (by omega)]; congr 1; omega
      · rw [if_neg h', if_pos (by omega)]
    · rw [if_neg h, Option.some_or, if_neg (by omega)]

theorem firstOutOfRange_none {base n : Nat} (h : n = 0 ∨ base + n ≤ 4096) : firstOutOfRange base n = none := by
  rw [firstOutOfRange_eq, if_pos h]

theorem firstOutOfRange_some {base n : Nat} (h : n ≠ 0) (h' : 4096 < base + n) :
    firstOutOfRange base n = some (max base 4096) := by
  rw [firstOutOfRange_eq, if_neg (by omega)]

theorem firstOutOfRange_eq_none_iff {base n : Nat} :
    firstOutOfRange base n = none ↔ n = 0 ∨ base + n ≤ 4096 := by
  rw [firstOutOfRange_eq]; split <;> simp_all

theorem firstOutOfRange_eq_some_iff {base n a : Nat} :
    firstOutOfRange base n = some a ↔ n ≠ 0 ∧ 4096 < base + n ∧ a = max base 4096 := by
  rw [firstOutOfRange_eq]
  split
  · simp; omega
  · simp only [Option.some.injEq]; omega

/-! ### Keys -/

theorem State.key_eq (s : State) {k : Nat} (h : k < 16) : s.key k = s.keys[k] := by
  simp [State.key, h]

/-- The scan answers the highest pressed key below `n`. -/
theorem State.lastPressed_some {s : State} {n k : Nat} (h : s.lastPressed n = some k) :
    k < n ∧ s.key k = true ∧ ∀ j, k < j → j < n → s.key j = false := by
  induction n with
  | zero => simp [State.lastPressed] at h
  | succ n ih =>
    simp only [State.lastPressed] at h
    split at h
    · next hk => cases h; exact ⟨by omega, hk, fun j _ _ => by omega⟩
    · next hk =>
      obtain ⟨h1, h2, h3⟩ := ih h
      refine ⟨by omega, h2, fun j hj hj' => ?_⟩
      by_cases hn : j = n
      · subst hn; simpa using hk
      · exact h3 j hj (by omega)

/-- The scan answers none exactly where no key below `n` is pressed. -/
theorem State.lastPressed_none {s : State} {n : Nat} :
    s.lastPressed n = none ↔ ∀ j, j < n → s.key j = false := by
  induction n with
  | zero => simp [State.lastPressed]
  | succ n ih =>
    simp only [State.lastPressed]
    split
    · next hk => simp only [reduceCtorEq, false_iff]; exact fun h => by simp [h n (by omega)] at hk
    · next hk =>
      rw [ih]
      refine ⟨fun h j hj => ?_, fun h j hj => h j (by omega)⟩
      by_cases hn : j = n
      · subst hn; simpa using hk
      · exact h j (by omega)

/-! ### Registers by number -/

@[simp] theorem regAt_val (r : Reg) : regAt r.val = r := by simp [regAt]

theorem regAt_eq_iff {k : Nat} (h : k < 16) (r : Reg) : regAt k = r ↔ r.val = k := by
  simp only [regAt, Fin.ext_iff, Fin.val_ofNat]; omega

/-! ### The store loop of FX55 -/

section
variable (s : State) (n : Nat)

/-- The store loop touches memory and `I` alone. -/
theorem State.storeRegs_frame :
    s.storeRegs n = { s with mem := (s.storeRegs n).mem, i := s.i + BitVec.ofNat 16 n } := by
  induction n with
  | zero => simp [State.storeRegs]
  | succ n ih =>
    simp only [State.storeRegs]
    rw [ih]
    simp only [State.setI, State.writeByte]
    congr 1
    rw [BitVec.add_assoc]
    congr 1
    exact (BitVec.ofNat_add n 1).symm

@[simp] theorem State.storeRegs_readV (q : Reg) : (s.storeRegs n).readV q = s.readV q := by
  rw [State.storeRegs_frame]; rfl

theorem State.storeRegs_i : (s.storeRegs n).i = s.i + BitVec.ofNat 16 n := by
  rw [State.storeRegs_frame]

@[simp] theorem State.storeRegs_font : (s.storeRegs n).mem.font = s.mem.font := by
  induction n with
  | zero => rfl
  | succ n ih => simp [State.storeRegs, ih]

theorem State.storeRegs_wf (h : s.mem.wf = true) : (s.storeRegs n).mem.wf = true := by
  induction n with
  | zero => exact h
  | succ n ih => simpa [State.storeRegs] using Memory.write_wf ih _ _

/-- Every byte after the store loop, where it stays in memory. -/
theorem State.storeRegs_readByte (h : s.i.toNat + n ≤ 4096) (hn : n ≤ 16) (a : Nat) :
    (s.storeRegs n).readByte a =
      if s.i.toNat ≤ a ∧ a < s.i.toNat + n then s.readV (regAt (a - s.i.toNat)) else s.readByte a := by
  induction n with
  | zero => rw [if_neg (by omega)]; rfl
  | succ n ih =>
    have hi : (s.i + BitVec.ofNat 16 n).toNat = s.i.toNat + n := by
      rw [BitVec.toNat_add, BitVec.toNat_ofNat]; omega
    simp only [State.storeRegs, State.setI_readByte, State.readByte_writeByte, State.storeRegs_i, hi,
      State.storeRegs_readV, ih (by omega) (by omega)]
    by_cases ha : a = s.i.toNat + n
    · subst ha
      rw [if_pos ⟨rfl, by omega⟩, if_pos ⟨by omega, by omega⟩, Nat.add_sub_cancel_left]
    · rw [if_neg (by omega)]
      by_cases hb : s.i.toNat ≤ a ∧ a < s.i.toNat + n
      · rw [if_pos hb, if_pos (by omega)]
      · rw [if_neg hb, if_neg (by omega)]

/-! ### The load loop of FX65 -/

/-- The load loop touches registers and `I` alone. -/
theorem State.loadRegs_frame :
    s.loadRegs n = { s with v := (s.loadRegs n).v, i := s.i + BitVec.ofNat 16 n } := by
  induction n with
  | zero => simp [State.loadRegs]
  | succ n ih =>
    simp only [State.loadRegs]
    rw [ih]
    simp only [State.setI, State.writeV]
    congr 1
    rw [BitVec.add_assoc]
    congr 1
    exact (BitVec.ofNat_add n 1).symm

theorem State.loadRegs_i : (s.loadRegs n).i = s.i + BitVec.ofNat 16 n := by
  rw [State.loadRegs_frame]

@[simp] theorem State.loadRegs_readByte (a : Nat) : (s.loadRegs n).readByte a = s.readByte a := by
  rw [State.loadRegs_frame]; rfl

/-- Every register after the load loop. -/
theorem State.loadRegs_readV (h : s.i.toNat + n ≤ 4096) (hn : n ≤ 16) (q : Reg) :
    (s.loadRegs n).readV q = if q.val < n then s.readByte (s.i.toNat + q.val) else s.readV q := by
  induction n with
  | zero => rw [if_neg (by omega)]; rfl
  | succ n ih =>
    have hi : (s.i + BitVec.ofNat 16 n).toNat = s.i.toNat + n := by
      rw [BitVec.toNat_add, BitVec.toNat_ofNat]; omega
    simp only [State.loadRegs, State.setI_readV, State.writeV_readV, State.loadRegs_readByte, State.loadRegs_i, hi,
      ih (by omega) (by omega)]
    have hr : q = regAt n ↔ q.val = n := by rw [eq_comm]; exact regAt_eq_iff (by omega) q
    by_cases hq : q.val = n
    · rw [if_pos (hr.2 hq), if_pos (by omega), hq]
    · rw [if_neg (fun h => hq (hr.1 h))]
      by_cases hb : q.val < n
      · rw [if_pos hb, if_pos (by omega)]
      · rw [if_neg hb, if_neg (by omega)]

end

end Sys2Proof.Machine
end

