-- ==== Sys2Proof/Laws/Display.lean ====
section
/-! SUPPORT. The display: the pixels of a sprite, the first one off the screen, and what a draw does to a cell. -/

namespace Sys2Proof.Machine

/-! ### Cells -/

theorem onScreen_iff {p : Pixel} : onScreen p = true ↔ p.1 < 64 ∧ p.2 < 32 := by
  simp [onScreen]

theorem Framebuffer.cell_eq (fb : Framebuffer) {x y : Nat} (hx : x < 64) (hy : y < 32) :
    Framebuffer.cell fb x y = fb[y * 64 + x]'(by omega) := by
  rw [Framebuffer.cell, if_pos (onScreen_iff.2 ⟨hx, hy⟩), cellIndex,
    Vector.getElem?_eq_getElem (by omega), Option.getD_some]

@[simp] theorem Framebuffer.cell_clear (x y : Nat) : Framebuffer.cell Framebuffer.clear x y = false := by
  simp only [Framebuffer.cell, Framebuffer.clear]
  split
  · next h =>
    have := onScreen_iff.1 h
    rw [cellIndex, Vector.getElem?_eq_getElem (by omega), Option.getD_some, Vector.getElem_replicate]
  · rfl

/-- Toggling a cell on the screen changes that cell and no other. -/
theorem Framebuffer.cell_toggle (fb : Framebuffer) {x y : Nat} (hx : x < 64) (hy : y < 32) (px py : Nat) :
    Framebuffer.cell (Framebuffer.toggle fb x y) px py =
      if px = x ∧ py = y then !Framebuffer.cell fb x y else Framebuffer.cell fb px py := by
  by_cases hp : px < 64 ∧ py < 32
  · rw [Framebuffer.cell_eq _ hp.1 hp.2, Framebuffer.cell_eq fb hp.1 hp.2]
    simp only [Framebuffer.toggle, cellIndex, Vector.getElem_setIfInBounds]
    by_cases h : px = x ∧ py = y
    · rw [if_pos (by omega), if_pos h]
    · rw [if_neg (by omega), if_neg h]
  · have hoff : onScreen (px, py) = false := by
      rw [← Bool.not_eq_true, onScreen_iff]; exact hp
    rw [if_neg (by omega)]
    simp only [Framebuffer.cell, hoff, Bool.false_eq_true, if_false]

/-- A framebuffer is its cells. -/
theorem Framebuffer.ext_cell {fb fb' : Framebuffer}
    (h : ∀ x y, x < 64 → y < 32 → Framebuffer.cell fb x y = Framebuffer.cell fb' x y) : fb = fb' := by
  apply Vector.ext
  intro k hk
  have := h (k % 64) (k / 64) (by omega) (by omega)
  rw [Framebuffer.cell_eq _ (by omega) (by omega), Framebuffer.cell_eq _ (by omega) (by omega)] at this
  simpa only [Nat.div_add_mod'] using this

/-! ### The pixels of a sprite -/

theorem mem_rowPixels {b : Byte} {x0 y n : Nat} {p : Pixel} :
    p ∈ rowPixels b x0 y n ↔ ∃ c, c < n ∧ b.getLsbD (7 - c) = true ∧ p = (x0 + c, y) := by
  induction n with
  | zero => simp [rowPixels]
  | succ n ih =>
    simp only [rowPixels, List.mem_append, ih]
    constructor
    · rintro (⟨c, hc, hb, rfl⟩ | h)
      · exact ⟨c, by omega, hb, rfl⟩
      · split at h
        · next hb => exact ⟨n, by omega, hb, by simpa using h⟩
        · simp at h
    · rintro ⟨c, hc, hb, rfl⟩
      by_cases hn : c = n
      · subst hn; right; simp [hb]
      · left; exact ⟨c, by omega, hb, rfl⟩

theorem State.mem_spritePixels {s : State} {x0 y0 n : Nat} {p : Pixel} :
    p ∈ s.spritePixels x0 y0 n ↔ ∃ r c, r < n ∧ c < 8 ∧ s.spriteBit r c ∧ p = (x0 + c, y0 + r) := by
  induction n with
  | zero => simp [State.spritePixels]
  | succ n ih =>
    simp only [State.spritePixels, List.mem_append, ih, mem_rowPixels]
    constructor
    · rintro (⟨r, c, hr, hc, hb, rfl⟩ | ⟨c, hc, hb, rfl⟩)
      · exact ⟨r, c, by omega, hc, hb, rfl⟩
      · exact ⟨n, c, by omega, hc, hb, rfl⟩
    · rintro ⟨r, c, hr, hc, hb, rfl⟩
      by_cases hn : r = n
      · subst hn; right; exact ⟨c, hc, hb, rfl⟩
      · left; exact ⟨r, c, by omega, hc, hb, rfl⟩

/-- Two pixels in row-major order. -/
def Pixel.before (p q : Pixel) : Prop := p.2 < q.2 ∨ (p.2 = q.2 ∧ p.1 < q.1)

theorem rowPixels_sorted (b : Byte) (x0 y n : Nat) : (rowPixels b x0 y n).Pairwise Pixel.before := by
  induction n with
  | zero => exact .nil
  | succ n ih =>
    rw [rowPixels, List.pairwise_append]
    refine ⟨ih, by split <;> simp, fun p hp q hq => ?_⟩
    obtain ⟨c, hc, -, rfl⟩ := mem_rowPixels.1 hp
    split at hq
    · rw [List.mem_singleton] at hq; subst hq; exact .inr ⟨rfl, by simp; omega⟩
    · simp at hq

/-- The pixels of a sprite are listed in row-major order, each once. -/
theorem State.spritePixels_sorted (s : State) (x0 y0 n : Nat) :
    (s.spritePixels x0 y0 n).Pairwise Pixel.before := by
  induction n with
  | zero => exact .nil
  | succ n ih =>
    rw [State.spritePixels, List.pairwise_append]
    refine ⟨ih, rowPixels_sorted .., fun p hp q hq => ?_⟩
    obtain ⟨r, c, hr, -, -, rfl⟩ := State.mem_spritePixels.1 hp
    obtain ⟨c', -, -, rfl⟩ := mem_rowPixels.1 hq
    exact .inl (by simp; omega)

theorem State.spritePixels_nodup (s : State) (x0 y0 n : Nat) : (s.spritePixels x0 y0 n).Nodup :=
  (s.spritePixels_sorted x0 y0 n).imp fun {a b} h hab => by subst hab; rcases h with h | h <;> omega

/-! ### The first pixel off the screen -/

theorem firstOffScreen_none {ps : List Pixel} : firstOffScreen ps = none ↔ ∀ p ∈ ps, onScreen p = true := by
  induction ps with
  | nil => simp [firstOffScreen]
  | cons p rest ih =>
    simp only [firstOffScreen]
    split
    · next h => rw [ih]; simp [h]
    · next h => simp [h]

/-- In a list in row-major order, the first pixel off the screen is the one before which every pixel is on it. -/
theorem firstOffScreen_some {ps : List Pixel} (hs : ps.Pairwise Pixel.before) {p : Pixel} :
    firstOffScreen ps = some p ↔
      p ∈ ps ∧ onScreen p = false ∧ ∀ q ∈ ps, q.before p → onScreen q = true := by
  induction ps with
  | nil => simp [firstOffScreen]
  | cons a rest ih =>
    rw [List.pairwise_cons] at hs
    simp only [firstOffScreen]
    split
    · next h =>
      rw [ih hs.2]
      constructor
      · rintro ⟨hm, ho, hb⟩
        refine ⟨List.mem_cons_of_mem _ hm, ho, fun q hq hqp => ?_⟩
        rcases List.mem_cons.1 hq with rfl | hq
        · exact h
        · exact hb q hq hqp
      · rintro ⟨hm, ho, hb⟩
        rcases List.mem_cons.1 hm with rfl | hm
        · simp [h] at ho
        · exact ⟨hm, ho, fun q hq => hb q (List.mem_cons_of_mem _ hq)⟩
    · next h =>
      simp only [Option.some.injEq]
      constructor
      · rintro rfl
        refine ⟨List.mem_cons_self .., by simpa using h, fun q hq hqp => ?_⟩
        rcases List.mem_cons.1 hq with rfl | hq
        · rcases hqp with h | h <;> omega
        · rcases hs.1 q hq with h' | h' <;> rcases hqp with h'' | h'' <;> omega
      · rintro ⟨hm, -, hb⟩
        rcases List.mem_cons.1 hm with rfl | hm
        · rfl
        · exact absurd (hb a (List.mem_cons_self ..) (hs.1 p hm)) h

/-! ### The write phase of a draw -/

theorem drawPixels_collide_mono (ps : List Pixel) (fb : Framebuffer) : (drawPixels ps (fb, true)).2 = true := by
  induction ps generalizing fb with
  | nil => rfl
  | cons p rest ih =>
    simp only [drawPixels]
    split <;> exact ih _

theorem drawPixels_fst_collide (ps : List Pixel) (fb : Framebuffer) (b b' : Bool) :
    (drawPixels ps (fb, b)).1 = (drawPixels ps (fb, b')).1 := by
  induction ps generalizing fb b b' with
  | nil => rfl
  | cons p rest ih => simp only [drawPixels]; exact ih _ _ _

/-- Every cell after the write phase: toggled where the list holds its pixel, else as it was. -/
theorem drawPixels_cell {ps : List Pixel} (hd : ps.Nodup) (hs : ∀ p ∈ ps, onScreen p = true)
    (fb : Framebuffer) (b : Bool) (px py : Nat) :
    Framebuffer.cell (drawPixels ps (fb, b)).1 px py =
      if (px, py) ∈ ps then !Framebuffer.cell fb px py else Framebuffer.cell fb px py := by
  induction ps generalizing fb b with
  | nil => simp [drawPixels]
  | cons p rest ih =>
    obtain ⟨x, y⟩ := p
    rw [List.nodup_cons] at hd
    obtain ⟨hx, hy⟩ := onScreen_iff.1 (hs _ (List.mem_cons_self ..))
    simp only [drawPixels]
    rw [ih hd.2 (fun p hp => hs p (List.mem_cons_of_mem _ hp)), Framebuffer.cell_toggle fb hx hy]
    by_cases h : px = x ∧ py = y
    · obtain ⟨rfl, rfl⟩ := h
      simp [hd.1]
    · have : (px, py) ≠ (x, y) := by simpa using h
      simp [h]

/-- The collision: some pixel of the list was on. -/
theorem drawPixels_collide {ps : List Pixel} (hd : ps.Nodup) (hs : ∀ p ∈ ps, onScreen p = true)
    (fb : Framebuffer) :
    (drawPixels ps (fb, false)).2 = true ↔ ∃ p ∈ ps, Framebuffer.cell fb p.1 p.2 = true := by
  induction ps generalizing fb with
  | nil => simp [drawPixels]
  | cons p rest ih =>
    obtain ⟨x, y⟩ := p
    rw [List.nodup_cons] at hd
    obtain ⟨hx, hy⟩ := onScreen_iff.1 (hs _ (List.mem_cons_self ..))
    simp only [drawPixels]
    by_cases hc : Framebuffer.cell fb x y = true
    · rw [if_pos hc]
      exact ⟨fun _ => ⟨(x, y), List.mem_cons_self .., hc⟩, fun _ => drawPixels_collide_mono _ _⟩
    · rw [if_neg hc, ih hd.2 (fun p hp => hs p (List.mem_cons_of_mem _ hp))]
      have key : ∀ q ∈ rest, Framebuffer.cell (Framebuffer.toggle fb x y) q.1 q.2 = Framebuffer.cell fb q.1 q.2 := by
        intro q hq
        rw [Framebuffer.cell_toggle fb hx hy, if_neg]
        rintro ⟨h1, h2⟩
        exact hd.1 (by have : q = (x, y) := Prod.ext h1 h2
                       exact this ▸ hq)
      constructor
      · rintro ⟨q, hq, h⟩; exact ⟨q, List.mem_cons_of_mem _ hq, key q hq ▸ h⟩
      · rintro ⟨q, hq, h⟩
        rcases List.mem_cons.1 hq with rfl | hq
        · exact absurd h hc
        · exact ⟨q, hq, (key q hq).symm ▸ h⟩

end Sys2Proof.Machine
end

