-- ==== Sys2Proof/Laws/Exec.lean ====
section
/-! SUPPORT. What the execute phase of any instruction can do, said once. -/

namespace Sys2Proof.Machine

/-- `raise` answers a next state: the same one, with the record. -/
theorem raise_eq (c : Fault) (n : Nat) (s : State) : raise c n s = .next (s.withFault c (some s.opcode) n) := rfl

/-- `LD VX, K` in its two cases. -/
theorem execLdVK_cases {x : Reg} {s t : State} (h : execLdVK x s = .next t) :
    (t = s ∧ s.lastPressed 16 = none) ∨
      ∃ k, s.lastPressed 16 = some k ∧ t = (s.writeV x (BitVec.ofNat 8 k)).advance := by
  simp only [execLdVK] at h
  split at h
  · next k hk => cases h; exact .inr ⟨k, hk, rfl⟩
  · next hk => cases h; exact .inl ⟨rfl, hk⟩

/-- `RET` in its two cases. -/
theorem execRet_cases {g : Nibble} {s t : State} (h : execRet g s = .next t) :
    (s.sp.val = 0 ∧ t = s.withFault .stackUnderflow (some s.opcode) 0) ∨
      (s.sp.val ≠ 0 ∧ t = s.popSlot.setPc (s.topOfStack + 2#16)) := by
  simp only [execRet] at h
  split at h
  · next h0 => cases h; exact .inl ⟨h0, rfl⟩
  · next h0 => cases h; exact .inr ⟨h0, rfl⟩

/-- `CALL` in its two cases. -/
theorem execCall_cases {a : Addr12} {s t : State} (h : execCall a s = .next t) :
    (s.sp.val = 16 ∧ t = s.withFault .stackOverflow (some s.opcode) 16) ∨
      ∃ h0 : s.sp.val < 16, t = (s.pushPc h0).setPc (zextAddr a) := by
  simp only [execCall] at h
  split at h
  · next h0 => cases h; exact .inr ⟨h0, rfl⟩
  · next h0 => cases h; exact .inl ⟨by omega, rfl⟩

/-- `SKP` in its two cases. -/
theorem execSkp_cases {x : Reg} {s t : State} (h : execSkp x s = .next t) :
    (15 < (s.readV x).toNat ∧ t = s.withFault .keyIndexOutOfRange (some s.opcode) (s.readV x).toNat) ∨
      ((s.readV x).toNat ≤ 15 ∧ t = s.skipIf (s.key (s.readV x).toNat)) := by
  simp only [execSkp] at h
  split at h
  · next h0 => cases h; exact .inl ⟨h0, rfl⟩
  · next h0 => cases h; exact .inr ⟨by omega, rfl⟩

/-- `SKNP` in its two cases. -/
theorem execSknp_cases {x : Reg} {s t : State} (h : execSknp x s = .next t) :
    (15 < (s.readV x).toNat ∧ t = s.withFault .keyIndexOutOfRange (some s.opcode) (s.readV x).toNat) ∨
      ((s.readV x).toNat ≤ 15 ∧ t = s.skipIf (!s.key (s.readV x).toNat)) := by
  simp only [execSknp] at h
  split at h
  · next h0 => cases h; exact .inl ⟨h0, rfl⟩
  · next h0 => cases h; exact .inr ⟨by omega, rfl⟩

/-- `DRW` in its three cases. -/
theorem execDrw_cases {x y : Reg} {n : Nibble} {s t : State} (h : execDrw x y n s = .next t) :
    (n.toNat ≠ 0 ∧ 4096 < s.i.toNat + n.toNat ∧
        t = s.withFault .memoryOutOfRange (some s.opcode) (max s.i.toNat 4096)) ∨
      ((n.toNat = 0 ∨ s.i.toNat + n.toNat ≤ 4096) ∧
        ((∃ p, firstOffScreen (s.spritePixels (s.readV x).toNat (s.readV y).toNat n.toNat) = some p ∧
            t = s.withFault .drawOffScreen (some s.opcode) (offScreenInfo p)) ∨
         (firstOffScreen (s.spritePixels (s.readV x).toNat (s.readV y).toNat n.toNat) = none ∧
            t = s.drawSprite (s.spritePixels (s.readV x).toNat (s.readV y).toNat n.toNat)))) := by
  simp only [execDrw] at h
  split at h
  · next a ha =>
    obtain ⟨h1, h2, rfl⟩ := firstOutOfRange_eq_some_iff.1 ha
    cases h; exact .inl ⟨h1, h2, rfl⟩
  · next ha =>
    refine .inr ⟨firstOutOfRange_eq_none_iff.1 ha, ?_⟩
    split at h
    · next p hp => cases h; exact .inl ⟨p, hp, rfl⟩
    · next hp => cases h; exact .inr ⟨hp, rfl⟩

/-- `LD B` in its two cases. -/
theorem execLdB_cases {x : Reg} {s t : State} (h : execLdB x s = .next t) :
    (4096 < s.i.toNat + 3 ∧ t = s.withFault .memoryOutOfRange (some s.opcode) (max s.i.toNat 4096)) ∨
      (s.i.toNat + 3 ≤ 4096 ∧ t = (s.storeDigits s.i.toNat (s.readV x)).advance) := by
  simp only [execLdB] at h
  split at h
  · next a ha =>
    obtain ⟨-, h2, rfl⟩ := firstOutOfRange_eq_some_iff.1 ha
    cases h; exact .inl ⟨h2, rfl⟩
  · next ha => cases h; exact .inr ⟨(firstOutOfRange_eq_none_iff.1 ha).resolve_left (by omega), rfl⟩

/-- `LD [I], VX` in its two cases. -/
theorem execLdMemV_cases {x : Reg} {s t : State} (h : execLdMemV x s = .next t) :
    (4096 < s.i.toNat + (x.val + 1) ∧ t = s.withFault .memoryOutOfRange (some s.opcode) (max s.i.toNat 4096)) ∨
      (s.i.toNat + (x.val + 1) ≤ 4096 ∧ t = (s.storeRegs (x.val + 1)).advance) := by
  simp only [execLdMemV] at h
  split at h
  · next a ha =>
    obtain ⟨-, h2, rfl⟩ := firstOutOfRange_eq_some_iff.1 ha
    cases h; exact .inl ⟨h2, rfl⟩
  · next ha => cases h; exact .inr ⟨(firstOutOfRange_eq_none_iff.1 ha).resolve_left (by omega), rfl⟩

/-- `LD VX, [I]` in its two cases. -/
theorem execLdVMem_cases {x : Reg} {s t : State} (h : execLdVMem x s = .next t) :
    (4096 < s.i.toNat + (x.val + 1) ∧ t = s.withFault .memoryOutOfRange (some s.opcode) (max s.i.toNat 4096)) ∨
      (s.i.toNat + (x.val + 1) ≤ 4096 ∧ t = (s.loadRegs (x.val + 1)).advance) := by
  simp only [execLdVMem] at h
  split at h
  · next a ha =>
    obtain ⟨-, h2, rfl⟩ := firstOutOfRange_eq_some_iff.1 ha
    cases h; exact .inl ⟨h2, rfl⟩
  · next ha => cases h; exact .inr ⟨(firstOutOfRange_eq_none_iff.1 ha).resolve_left (by omega), rfl⟩

/-- The execute phase of an instruction always answers a next state: the spec gives every one its effect, and a fault
is a next state that holds the record. -/
theorem exec_next (i : Instr) (s : State) : ∃ t, exec i s = .next t := by
  cases i
  case ret => simp only [exec, execRet]; split <;> exact ⟨_, rfl⟩
  case call => simp only [exec, execCall]; split <;> exact ⟨_, rfl⟩
  case drw =>
    simp only [exec, execDrw]
    split
    · exact ⟨_, rfl⟩
    · split <;> exact ⟨_, rfl⟩
  case skp => simp only [exec, execSkp]; split <;> exact ⟨_, rfl⟩
  case sknp => simp only [exec, execSknp]; split <;> exact ⟨_, rfl⟩
  case ldVK => simp only [exec, execLdVK]; split <;> exact ⟨_, rfl⟩
  case ldB => simp only [exec, execLdB]; split <;> exact ⟨_, rfl⟩
  case ldMemV => simp only [exec, execLdMemV]; split <;> exact ⟨_, rfl⟩
  case ldVMem => simp only [exec, execLdVMem]; split <;> exact ⟨_, rfl⟩
  all_goals exact ⟨_, rfl⟩

@[simp] theorem State.skipIf_fault (s : State) (b : Bool) : (s.skipIf b).fault = s.fault := by cases b <;> rfl
@[simp] theorem State.storeRegs_fault (s : State) (n : Nat) : (s.storeRegs n).fault = s.fault := by
  rw [State.storeRegs_frame]
@[simp] theorem State.loadRegs_fault (s : State) (n : Nat) : (s.loadRegs n).fault = s.fault := by
  rw [State.loadRegs_frame]

/-- An instruction either faults, changing nothing but the record, or leaves the record alone. -/
theorem exec_fault_cases {i : Instr} {s t : State} (h : exec i s = .next t) :
    (∃ c n, t = s.withFault c (some s.opcode) n) ∨ t.fault = s.fault := by
  cases i
  case ret g =>
    rcases execRet_cases (g := g) h with ⟨-, rfl⟩ | ⟨-, rfl⟩
    · exact .inl ⟨_, _, rfl⟩
    · exact .inr rfl
  case call =>
    rcases execCall_cases h with ⟨-, rfl⟩ | ⟨h0, rfl⟩
    · exact .inl ⟨_, _, rfl⟩
    · exact .inr rfl
  case drw =>
    rcases execDrw_cases h with ⟨-, -, rfl⟩ | ⟨-, ⟨p, -, rfl⟩ | ⟨-, rfl⟩⟩
    · exact .inl ⟨_, _, rfl⟩
    · exact .inl ⟨_, _, rfl⟩
    · exact .inr rfl
  case skp =>
    rcases execSkp_cases h with ⟨-, rfl⟩ | ⟨-, rfl⟩
    · exact .inl ⟨_, _, rfl⟩
    · exact .inr (by simp)
  case sknp =>
    rcases execSknp_cases h with ⟨-, rfl⟩ | ⟨-, rfl⟩
    · exact .inl ⟨_, _, rfl⟩
    · exact .inr (by simp)
  case ldVK =>
    rcases execLdVK_cases h with ⟨rfl, -⟩ | ⟨k, -, rfl⟩ <;> exact .inr rfl
  case ldB =>
    rcases execLdB_cases h with ⟨-, rfl⟩ | ⟨-, rfl⟩
    · exact .inl ⟨_, _, rfl⟩
    · exact .inr rfl
  case ldMemV =>
    rcases execLdMemV_cases h with ⟨-, rfl⟩ | ⟨-, rfl⟩
    · exact .inl ⟨_, _, rfl⟩
    · exact .inr (by simp)
  case ldVMem =>
    rcases execLdVMem_cases h with ⟨-, rfl⟩ | ⟨-, rfl⟩
    · exact .inl ⟨_, _, rfl⟩
    · exact .inr (by simp)
  case seImm => cases h; exact .inr (by simp)
  case sneImm => cases h; exact .inr (by simp)
  case seReg => cases h; exact .inr (by simp)
  case sneReg => cases h; exact .inr (by simp)
  all_goals (cases h; exact .inr rfl)

end Sys2Proof.Machine
end

