-- ==== Sys2Proof/Laws/IndexMemory.lean ====
section
/-! SUPPORT. The three stores of LD B. -/

namespace Sys2Proof.Machine

section
variable (s : State) (base : Nat) (v : Byte)

/-- The digit stores touch memory alone. -/
theorem State.storeDigits_frame : s.storeDigits base v = { s with mem := (s.storeDigits base v).mem } := rfl

@[simp] theorem State.storeDigits_readV (q : Reg) : (s.storeDigits base v).readV q = s.readV q := rfl

@[simp] theorem State.storeDigits_font : (s.storeDigits base v).mem.font = s.mem.font := by
  simp [State.storeDigits]

theorem State.storeDigits_wf (h : s.mem.wf = true) : (s.storeDigits base v).mem.wf = true :=
  Memory.write_wf (Memory.write_wf (Memory.write_wf h _ _) _ _) _ _

/-- Every byte after the digit stores, where they stay in memory. -/
theorem State.storeDigits_readByte (h : base + 3 ≤ 4096) (a : Nat) :
    (s.storeDigits base v).readByte a =
      if a = base then hundreds v else if a = base + 1 then tens v
      else if a = base + 2 then units v else s.readByte a := by
  simp only [State.storeDigits, State.readByte_writeByte]
  by_cases h0 : a = base
  · rw [if_neg (by omega), if_neg (by omega), if_pos (by omega), if_pos h0]
  · by_cases h1 : a = base + 1
    · rw [if_neg (by omega), if_pos (by omega), if_neg h0, if_pos h1]
    · by_cases h2 : a = base + 2
      · rw [if_pos (by omega), if_neg h0, if_neg h1, if_pos h2]
      · rw [if_neg (by omega), if_neg (by omega), if_neg (by omega), if_neg h0, if_neg h1, if_neg h2]

end

theorem hundreds_toNat (v : Byte) : (hundreds v).toNat = v.toNat / 100 := by
  have := v.isLt; rw [hundreds, BitVec.toNat_ofNat]; omega

theorem tens_toNat (v : Byte) : (tens v).toNat = v.toNat / 10 % 10 := by
  rw [tens, BitVec.toNat_ofNat]; omega

theorem units_toNat (v : Byte) : (units v).toNat = v.toNat % 10 := by
  rw [units, BitVec.toNat_ofNat]; omega

end Sys2Proof.Machine
end

