-- ==== Sys2Proof/Laws/PerInstr.lean ====
section
/-! SUPPORT. One statement about every instruction as syntax, by its constructors: the first four bits of its word are
its group, the value the first level of the dispatch selects on (30_encoding.md R71, R74). -/

namespace Sys2Proof.Laws.GroupNibble

/-- Field G of the instruction's word is the number of its group. -/
def Statement (i : Instr) : Prop := (fieldG (encode i)).toNat = i.group

theorem cls (ign : Nibble) : Statement (.cls ign) := by
  simp only [Statement, encode, fieldG_fmtXNN]; rfl

theorem ret (ign : Nibble) : Statement (.ret ign) := by
  simp only [Statement, encode, fieldG_fmtXNN]; rfl

theorem jp (nnn : Addr12) : Statement (.jp nnn) := by
  simp only [Statement, encode, fieldG_fmtNNN]; rfl

theorem call (nnn : Addr12) : Statement (.call nnn) := by
  simp only [Statement, encode, fieldG_fmtNNN]; rfl

theorem seImm (x : Reg) (nn : Byte) : Statement (.seImm x nn) := by
  simp only [Statement, encode, fieldG_fmtXNN]; rfl

theorem sneImm (x : Reg) (nn : Byte) : Statement (.sneImm x nn) := by
  simp only [Statement, encode, fieldG_fmtXNN]; rfl

theorem seReg (x y : Reg) (ign : Nibble) : Statement (.seReg x y ign) := by
  simp only [Statement, encode, fieldG_fmtXYN]; rfl

theorem ldImm (x : Reg) (nn : Byte) : Statement (.ldImm x nn) := by
  simp only [Statement, encode, fieldG_fmtXNN]; rfl

theorem addImm (x : Reg) (nn : Byte) : Statement (.addImm x nn) := by
  simp only [Statement, encode, fieldG_fmtXNN]; rfl

theorem ldReg (x y : Reg) : Statement (.ldReg x y) := by
  simp only [Statement, encode, fieldG_fmtXYN]; rfl

theorem orReg (x y : Reg) : Statement (.orReg x y) := by
  simp only [Statement, encode, fieldG_fmtXYN]; rfl

theorem andReg (x y : Reg) : Statement (.andReg x y) := by
  simp only [Statement, encode, fieldG_fmtXYN]; rfl

theorem xorReg (x y : Reg) : Statement (.xorReg x y) := by
  simp only [Statement, encode, fieldG_fmtXYN]; rfl

theorem addReg (x y : Reg) : Statement (.addReg x y) := by
  simp only [Statement, encode, fieldG_fmtXYN]; rfl

theorem subReg (x y : Reg) : Statement (.subReg x y) := by
  simp only [Statement, encode, fieldG_fmtXYN]; rfl

theorem shr (x y : Reg) : Statement (.shr x y) := by
  simp only [Statement, encode, fieldG_fmtXYN]; rfl

theorem subnReg (x y : Reg) : Statement (.subnReg x y) := by
  simp only [Statement, encode, fieldG_fmtXYN]; rfl

theorem shl (x y : Reg) : Statement (.shl x y) := by
  simp only [Statement, encode, fieldG_fmtXYN]; rfl

theorem sneReg (x y : Reg) (ign : Nibble) : Statement (.sneReg x y ign) := by
  simp only [Statement, encode, fieldG_fmtXYN]; rfl

theorem ldI (nnn : Addr12) : Statement (.ldI nnn) := by
  simp only [Statement, encode, fieldG_fmtNNN]; rfl

theorem jpV0 (nnn : Addr12) : Statement (.jpV0 nnn) := by
  simp only [Statement, encode, fieldG_fmtNNN]; rfl

theorem rnd (x : Reg) (nn : Byte) : Statement (.rnd x nn) := by
  simp only [Statement, encode, fieldG_fmtXNN]; rfl

theorem drw (x y : Reg) (n : Nibble) : Statement (.drw x y n) := by
  simp only [Statement, encode, fieldG_fmtXYN]; rfl

theorem skp (x : Reg) : Statement (.skp x) := by
  simp only [Statement, encode, fieldG_fmtXNN]; rfl

theorem sknp (x : Reg) : Statement (.sknp x) := by
  simp only [Statement, encode, fieldG_fmtXNN]; rfl

theorem ldVDt (x : Reg) : Statement (.ldVDt x) := by
  simp only [Statement, encode, fieldG_fmtXNN]; rfl

theorem ldVK (x : Reg) : Statement (.ldVK x) := by
  simp only [Statement, encode, fieldG_fmtXNN]; rfl

theorem ldDtV (x : Reg) : Statement (.ldDtV x) := by
  simp only [Statement, encode, fieldG_fmtXNN]; rfl

theorem ldStV (x : Reg) : Statement (.ldStV x) := by
  simp only [Statement, encode, fieldG_fmtXNN]; rfl

theorem addI (x : Reg) : Statement (.addI x) := by
  simp only [Statement, encode, fieldG_fmtXNN]; rfl

theorem ldF (x : Reg) : Statement (.ldF x) := by
  simp only [Statement, encode, fieldG_fmtXNN]; rfl

theorem ldB (x : Reg) : Statement (.ldB x) := by
  simp only [Statement, encode, fieldG_fmtXNN]; rfl

theorem ldMemV (x : Reg) : Statement (.ldMemV x) := by
  simp only [Statement, encode, fieldG_fmtXNN]; rfl

theorem ldVMem (x : Reg) : Statement (.ldVMem x) := by
  simp only [Statement, encode, fieldG_fmtXNN]; rfl

theorem unknown0 (x : Nibble) (nn : Byte) : Statement (.unknown0 x nn) := by
  simp only [Statement, encode, fieldG_fmtXNN]; rfl

theorem unknown8 (x y k : Nibble) : Statement (.unknown8 x y k) := by
  simp only [Statement, encode, fieldG_fmtXYN]; rfl

theorem unknownE (x : Nibble) (nn : Byte) : Statement (.unknownE x nn) := by
  simp only [Statement, encode, fieldG_fmtXNN]; rfl

theorem unknownF (x : Nibble) (nn : Byte) : Statement (.unknownF x nn) := by
  simp only [Statement, encode, fieldG_fmtXNN]; rfl

end Sys2Proof.Laws.GroupNibble
end

