-- ==== Sys2Proof/Laws/Step.lean ====
section
/-! SUPPORT. What a step can do, said once. -/

namespace Sys2Proof.Machine

theorem State.canFetch_iff (s : State) : s.canFetch = true ↔ s.pc.toNat ≤ 0xFFE := by
  simp only [State.canFetch, Config.memSize, decide_eq_true_eq]; omega

/-- The fetch of a state whose `pc` is in range. -/
theorem State.fetch_some {s : State} (h : s.pc.toNat ≤ 0xFFE) :
    s.fetch = some [s.readByte s.pc.toNat, s.readByte (s.pc.toNat + 1)] := by
  rw [State.fetch, if_pos (s.canFetch_iff.2 h)]

theorem State.fetch_none {s : State} (h : 0xFFE < s.pc.toNat) : s.fetch = none := by
  rw [State.fetch, if_neg (fun hc => by have := s.canFetch_iff.1 hc; omega)]

@[simp] theorem State.latch_eq_fetched (s : State) :
    s.latch [s.readByte s.pc.toNat, s.readByte (s.pc.toNat + 1)] = s.fetched := rfl

@[simp] theorem finishResult_next (t : State) : finishResult (.next t) = .next t.finish := rfl

/-- The inversion of a step: a Faulted core, a fetch that leaves memory, or an instruction. -/
theorem step_cases {s t : State} (h : step s = .next t) :
    (∃ r, s.fault = some r ∧ t = s.clearDiag) ∨
      (s.fault = none ∧ 0xFFE < s.pc.toNat ∧ t = s.fetchFault) ∨
      (s.running ∧ ∃ e, exec s.nextInstr s.fetched = .next e ∧ t = e.finish) := by
  simp only [step] at h
  split at h
  · next r hf => cases h; exact .inl ⟨r, hf, rfl⟩
  · next hf =>
    by_cases hp : s.pc.toNat ≤ 0xFFE
    · obtain ⟨e, he⟩ := exec_next s.nextInstr s.fetched
      rw [State.fetch_some hp] at h
      have h' : finishResult (exec s.nextInstr s.fetched) = .next t := h
      rw [he] at h'
      cases h'
      exact .inr (.inr ⟨⟨hf, hp⟩, e, he, rfl⟩)
    · rw [State.fetch_none (by omega)] at h; cases h; exact .inr (.inl ⟨hf, by omega, rfl⟩)

/-- The inversion of a step that completes: a running core, an instruction that does not fault, the tick. -/
theorem step_completed {s t : State} (h : step s = .next t) (hs : s.running) (ht : t.fault = none) :
    ∃ e, exec s.nextInstr s.fetched = .next e ∧ e.fault = none ∧ t = e.timerTick := by
  rcases step_cases h with ⟨r, hr, -⟩ | ⟨-, hp, -⟩ | ⟨-, e, he, rfl⟩
  · rw [hs.1] at hr; cases hr
  · have := hs.2; omega
  · cases hf : e.fault with
    | some r => rw [State.finish_of_fault hf, hf] at ht; cases ht
    | none => exact ⟨e, he, hf, State.finish_of_running hf⟩

/-! ### `fetched` -/

section
variable (s : State)
@[simp] theorem State.fetched_readV (r : Reg) : s.fetched.readV r = s.readV r := rfl
@[simp] theorem State.fetched_readByte (a : Nat) : s.fetched.readByte a = s.readByte a := rfl
@[simp] theorem State.fetched_v : s.fetched.v = s.v := rfl
@[simp] theorem State.fetched_i : s.fetched.i = s.i := rfl
@[simp] theorem State.fetched_pc : s.fetched.pc = s.pc := rfl
@[simp] theorem State.fetched_sp : s.fetched.sp = s.sp := rfl
@[simp] theorem State.fetched_stack : s.fetched.stack = s.stack := rfl
@[simp] theorem State.fetched_dt : s.fetched.dt = s.dt := rfl
@[simp] theorem State.fetched_st : s.fetched.st = s.st := rfl
@[simp] theorem State.fetched_opcode : s.fetched.opcode = s.nextWord := rfl
@[simp] theorem State.fetched_redraw : s.fetched.redraw = s.redraw := rfl
@[simp] theorem State.fetched_mem : s.fetched.mem = s.mem := rfl
@[simp] theorem State.fetched_fb : s.fetched.fb = s.fb := rfl
@[simp] theorem State.fetched_keys : s.fetched.keys = s.keys := rfl
@[simp] theorem State.fetched_fault : s.fetched.fault = s.fault := rfl
@[simp] theorem State.fetched_diag : s.fetched.diag = none := rfl
@[simp] theorem State.fetched_randByte : s.fetched.randByte = s.randByte := rfl
@[simp] theorem State.fetched_draws : s.fetched.draws = s.draws := rfl
end

end Sys2Proof.Machine
end

