-- ==== Sys2Proof/Tests/Slice0.lean ====
section
/-! SUPPORT. Tests: the well-formedness smoke tests, the decoding of words written out from the formats of
30_encoding.md R73, one-step tests whose expected values are those of 95_test_vectors.md, and a witness for the
hypotheses of every obligation that has some. -/

namespace Sys2Proof.Tests

open Sys2Proof.Machine

/-! ### Helpers -/

/-- The reset state with some registers set. -/
def startV (vs : List (Reg × Byte)) : State := vs.foldl (fun s p => s.writeV p.1 p.2) State.reset

/-- The state with bytes stored from an address on. -/
def withBytes (a : Nat) (bytes : List Byte) (s : State) : State := s.storeImage a bytes

/-- The answered state, else the one given. -/
def answerOr : Result → State → State
  | .next t, _ => t
  | .fault _, s => s
  | .refused _, s => s

/-- A next state is answered. -/
def isNext : Result → Bool
  | .next _ => true
  | .fault _ => false
  | .refused _ => false

/-- The state after one step. -/
def after (s : State) : State := answerOr (step s) s

/-- The state after one step on an instruction word placed where the step fetches. -/
def ran (w : Nat) (s : State) : State := after (s.withFetchWord 16 w)

theorem next_of_isNext {r : Result} {s : State} (h : isNext r = true) : r = .next (answerOr r s) := by
  cases r
  · rfl
  · cases h
  · cases h

theorem step_after {s : State} (h : isNext (step s) = true) : step s = .next (after s) := next_of_isNext h

/-! ### Well-formedness: an unknown-opcode term that holds the selector of a defined instruction is refused (R80) -/

theorem test_wellFormed_refuses_unknown0 :
    (Instr.unknown0 0xA#4 0xE0#8).wellFormed = false ∧ (Instr.unknown0 0#4 0xEE#8).wellFormed = false := by decide

theorem test_wellFormed_refuses_unknown8 :
    (Instr.unknown8 1#4 2#4 7#4).wellFormed = false ∧ (Instr.unknown8 1#4 2#4 0xE#4).wellFormed = false := by decide

theorem test_wellFormed_refuses_unknownE :
    (Instr.unknownE 1#4 0x9E#8).wellFormed = false ∧ (Instr.unknownE 1#4 0xA1#8).wellFormed = false := by decide

theorem test_wellFormed_refuses_unknownF :
    (Instr.unknownF 1#4 0x07#8).wellFormed = false ∧ (Instr.unknownF 1#4 0x65#8).wellFormed = false := by decide

theorem test_wellFormed_accepts_unknown :
    (Instr.unknown0 0xA#4 0x00#8).wellFormed = true ∧ (Instr.unknown8 1#4 2#4 0xF#4).wellFormed = true ∧
      (Instr.unknownE 1#4 0xFF#8).wellFormed = true ∧ (Instr.unknownF 1#4 0x75#8).wellFormed = true := by decide

/-! ### Decoding: words written out bit by bit, group, X, Y, N in order (R70, R71, R73, R75 to R80) -/

theorem test_decode_control_flow :
    decodeWord 0b0000_0011_1110_0000#16 = .cls 3#4 ∧
    decodeWord 0b0000_0101_1110_1110#16 = .ret 5#4 ∧
    decodeWord 0b0001_1010_1011_1100#16 = .jp 0xABC#12 ∧
    decodeWord 0b0010_0100_0000_0001#16 = .call 0x401#12 ∧
    decodeWord 0b0011_1010_0000_0101#16 = .seImm 10 0x05#8 ∧
    decodeWord 0b0100_0011_0001_0010#16 = .sneImm 3 0x12#8 ∧
    decodeWord 0b0101_0001_0010_0111#16 = .seReg 1 2 7#4 ∧
    decodeWord 0b1001_0001_0010_1000#16 = .sneReg 1 2 8#4 ∧
    decodeWord 0b1011_1111_1111_1110#16 = .jpV0 0xFFE#12 := by decide

theorem test_decode_loads_and_logic :
    decodeWord 0b0110_1111_0001_0010#16 = .ldImm 15 0x12#8 ∧
    decodeWord 0b0111_0001_1000_0001#16 = .addImm 1 0x81#8 ∧
    decodeWord 0b1000_1010_1011_0000#16 = .ldReg 10 11 ∧
    decodeWord 0b1000_0001_0010_0001#16 = .orReg 1 2 ∧
    decodeWord 0b1000_0001_0010_0010#16 = .andReg 1 2 ∧
    decodeWord 0b1000_0001_0010_0011#16 = .xorReg 1 2 := by decide

theorem test_decode_arithmetic :
    decodeWord 0b1000_0001_0010_0100#16 = .addReg 1 2 ∧
    decodeWord 0b1000_0001_0010_0101#16 = .subReg 1 2 ∧
    decodeWord 0b1000_0001_0010_0110#16 = .shr 1 2 ∧
    decodeWord 0b1000_0001_0010_0111#16 = .subnReg 1 2 ∧
    decodeWord 0b1000_0001_0010_1110#16 = .shl 1 2 ∧
    decodeWord 0b1100_0011_0000_1111#16 = .rnd 3 0x0F#8 := by decide

theorem test_decode_display_and_keypad :
    decodeWord 0b1101_0001_0010_0101#16 = .drw 1 2 5#4 ∧
    decodeWord 0b1110_0010_1001_1110#16 = .skp 2 ∧
    decodeWord 0b1110_0010_1010_0001#16 = .sknp 2 ∧
    decodeWord 0b1111_0101_0000_0111#16 = .ldVDt 5 ∧
    decodeWord 0b1111_0011_0000_1010#16 = .ldVK 3 ∧
    decodeWord 0b1111_0011_0001_0101#16 = .ldDtV 3 ∧
    decodeWord 0b1111_0100_0001_1000#16 = .ldStV 4 := by decide

theorem test_decode_index_and_memory :
    decodeWord 0b1010_0001_0010_0011#16 = .ldI 0x123#12 ∧
    decodeWord 0b1111_0010_0001_1110#16 = .addI 2 ∧
    decodeWord 0b1111_0000_0010_1001#16 = .ldF 0 ∧
    decodeWord 0b1111_0001_0011_0011#16 = .ldB 1 ∧
    decodeWord 0b1111_0011_0101_0101#16 = .ldMemV 3 ∧
    decodeWord 0b1111_1111_0110_0101#16 = .ldVMem 15 := by decide

theorem test_decode_unknown :
    decodeWord 0b0000_0001_0010_0011#16 = .unknown0 1#4 0x23#8 ∧
    decodeWord 0b1000_0001_0010_1000#16 = .unknown8 1#4 2#4 8#4 ∧
    decodeWord 0b1110_0010_1111_1111#16 = .unknownE 2#4 0xFF#8 ∧
    decodeWord 0b1111_0000_0111_0101#16 = .unknownF 0#4 0x75#8 := by decide

theorem test_decode_bytes :
    decode [0x0A#8, 0xE0#8, 0x12#8] = .ok (.cls 0xA#4) [0x12#8] ∧ decode [0x12#8] = .rejected .truncated ∧
      decode [] = .rejected .truncated ∧ decodeTableWord 16 0x8124 = some (.addReg 1 2) := by decide

/-! ### The step: fetch, unknown opcodes, ticks (95_test_vectors.md 2.1, S10) -/

/-- CY8: the last word of memory runs. -/
theorem test_fetch_last_word :
    let t := ran 0x6001 { State.reset with pc := 0xFFE#16 }
    t.readV 0 = 1#8 ∧ t.pc = 0x1000#16 := by decide

/-- CY9: and the next fetch faults, without a tick. -/
theorem test_fetch_fault :
    let t := after { State.reset with pc := 0x1000#16, dt := 5#8 }
    t.fault = some ⟨.fetchOutOfRange, 0x1000#16, none, 0x1000⟩ ∧ t.dt = 5#8 := by decide

/-- CY10: one byte in memory is not enough. -/
theorem test_fetch_fault_half :
    (after { State.reset with pc := 0xFFF#16 }).fault = some ⟨.fetchOutOfRange, 0x0FFF#16, none, 0x0FFF⟩ := by decide

/-- CY12: an odd `pc` fetches. -/
theorem test_fetch_odd :
    let t := after { (withBytes 0x301 [0x61#8, 0x07#8] State.reset) with pc := 0x301#16 }
    t.readV 1 = 7#8 ∧ t.pc = 0x303#16 := by decide

/-- S10: the tick stops at 0; KT16 for ST. -/
theorem test_tick :
    (ran 0x6000 { State.reset with dt := 3#8, st := 1#8 }).dt = 2#8 ∧
      (ran 0x6000 { State.reset with dt := 3#8, st := 1#8 }).st = 0#8 ∧
      (ran 0x6000 { State.reset with dt := 0#8 }).dt = 0#8 := by decide

/-- CY1, CY2: group 0. -/
theorem test_unknown0 :
    let t := ran 0x0000 { State.reset with pc := 0x300#16, dt := 5#8 }
    t.diag = some ⟨0x0000#16, 0x300#16⟩ ∧ t.pc = 0x302#16 ∧ t.dt = 4#8 ∧
      (ran 0x0123 State.reset).diag = some ⟨0x0123#16, 0x200#16⟩ := by decide

/-- CY3: group 8. -/
theorem test_unknown8 :
    let t := ran 0x8128 (startV [(1, 3#8), (VF, 4#8)])
    t.diag = some ⟨0x8128#16, 0x200#16⟩ ∧ t.readV 1 = 3#8 ∧ t.readV VF = 4#8 := by decide

/-- CY5: group E, no fault though V2 is above 15. -/
theorem test_unknownE :
    let t := ran 0xE2FF (startV [(2, 200#8)])
    t.diag = some ⟨0xE2FF#16, 0x200#16⟩ ∧ t.fault = none ∧ t.pc = 0x202#16 := by decide

/-- CY7: group F. -/
theorem test_unknownF :
    let t := ran 0xF075 State.reset
    t.diag = some ⟨0xF075#16, 0x200#16⟩ ∧ t.pc = 0x202#16 := by decide

/-! ### Control flow (95_test_vectors.md 2.2, S4, S5) -/

/-- CF1, CF2. -/
theorem test_ret :
    let s := { State.reset with pc := 0x500#16, sp := 2, stack := State.reset.stack.set 1 0x3A0#16 }
    (ran 0x05EE s).sp = 1 ∧ (ran 0x00EE s).pc = 0x3A2#16 ∧ (ran 0x00EE s).stack[1] = 0x3A0#16 := by decide

/-- CF3. -/
theorem test_ret_underflow :
    let t := ran 0x00EE { State.reset with pc := 0x300#16, dt := 5#8 }
    t.fault = some ⟨.stackUnderflow, 0x300#16, some 0x00EE#16, 0⟩ ∧ t.dt = 5#8 := by decide

/-- CF5. -/
theorem test_jp : (ran 0x1FFF State.reset).pc = 0xFFF#16 := by decide

/-- CF9. -/
theorem test_call :
    let t := ran 0x2400 { State.reset with sp := 15 }
    t.stack[15] = 0x200#16 ∧ t.sp = 16 ∧ t.pc = 0x400#16 := by decide

/-- CF8. -/
theorem test_call_overflow :
    let t := ran 0x2400 { State.reset with sp := 16 }
    t.fault = some ⟨.stackOverflow, 0x200#16, some 0x2400#16, 16⟩ ∧ t.sp = 16 := by decide

/-- S4, S5. -/
theorem test_se_imm :
    (ran 0x3A05 (startV [(10, 5#8)])).pc = 0x204#16 ∧ (ran 0x3A05 (startV [(10, 6#8)])).pc = 0x202#16 := by decide

/-- CF12, CF13. -/
theorem test_sne_imm :
    (ran 0x4312 (startV [(3, 0x12#8)])).pc = 0x202#16 ∧ (ran 0x4313 (startV [(3, 0x12#8)])).pc = 0x204#16 := by
  decide

/-- CF15, CF16. -/
theorem test_se_reg :
    (ran 0x5120 (startV [(1, 0x40#8), (2, 0x41#8)])).pc = 0x202#16 ∧
      (ran 0x5127 (startV [(1, 0x40#8), (2, 0x40#8)])).pc = 0x204#16 := by decide

/-- CF17, CF19. -/
theorem test_sne_reg :
    (ran 0x9120 (startV [(1, 0x40#8), (2, 0x41#8)])).pc = 0x204#16 ∧ (ran 0x9110 State.reset).pc = 0x202#16 := by
  decide

/-- CF21, CF22. -/
theorem test_jp_v0 :
    (ran 0xBFFF (startV [(0, 0xFF#8)])).pc = 0x10FE#16 ∧
      (ran 0xB300 (startV [(0, 0x10#8), (3, 0x99#8)])).pc = 0x310#16 := by decide

/-! ### Loads, ALU, random (95_test_vectors.md 2.3, S1 to S3) -/

/-- AL1. -/
theorem test_ld_imm : (ran 0x6F12 State.reset).readV VF = 0x12#8 := by decide

/-- AL2. -/
theorem test_add_imm :
    let t := ran 0x7101 (startV [(1, 0xFF#8), (VF, 0x55#8)])
    t.readV 1 = 0#8 ∧ t.readV VF = 0x55#8 := by decide

/-- AL4. -/
theorem test_ld_reg : (ran 0x8AB0 (startV [(11, 0x7E#8)])).readV 10 = 0x7E#8 := by decide

/-- AL5. -/
theorem test_or :
    let t := ran 0x8121 (startV [(1, 0x5A#8), (2, 0xA5#8), (VF, 1#8)])
    t.readV 1 = 0xFF#8 ∧ t.readV VF = 1#8 := by decide

/-- AL6. -/
theorem test_and : (ran 0x8122 (startV [(1, 0x5A#8), (2, 0xA5#8)])).readV 1 = 0#8 := by decide

/-- AL7. -/
theorem test_xor : (ran 0x8123 (startV [(1, 0x5A#8), (2, 0xFF#8)])).readV 1 = 0xA5#8 := by decide

/-- S1. -/
theorem test_add_reg_carry :
    let t := ran 0x8124 (startV [(1, 250#8), (2, 10#8)])
    t.readV 1 = 4#8 ∧ t.readV VF = 1#8 := by decide

/-- AL11, AL12. -/
theorem test_add_reg_vf :
    (ran 0x8F14 (startV [(VF, 0xF0#8), (1, 0x20#8)])).readV VF = 0x10#8 ∧
      (ran 0x81F4 (startV [(1, 0xF0#8), (VF, 0x20#8)])).readV 1 = 0x10#8 := by decide

/-- S3, AL15. -/
theorem test_sub_reg :
    (ran 0x8125 (startV [(1, 5#8), (2, 10#8)])).readV 1 = 251#8 ∧
      (ran 0x8125 (startV [(1, 7#8), (2, 7#8), (VF, 9#8)])).readV VF = 0#8 := by decide

/-- AL17, AL18. -/
theorem test_sub_reg_vf :
    (ran 0x8F15 (startV [(VF, 5#8), (1, 3#8)])).readV VF = 0xFE#8 ∧
      (ran 0x81F5 (startV [(1, 10#8), (VF, 3#8)])).readV 1 = 9#8 := by decide

/-- AL22. -/
theorem test_shr :
    let t := ran 0x8126 (startV [(1, 0x05#8), (2, 0xFF#8)])
    t.readV 1 = 2#8 ∧ t.readV VF = 1#8 := by decide

/-- AL23. -/
theorem test_shr_vf : (ran 0x8F06 (startV [(VF, 0xFF#8)])).readV VF = 0#8 := by decide

/-- AL25. -/
theorem test_subn_reg :
    let t := ran 0x8127 (startV [(1, 10#8), (2, 5#8)])
    t.readV 1 = 0xFB#8 ∧ t.readV VF = 0#8 := by decide

/-- AL27, AL28. -/
theorem test_subn_reg_vf :
    (ran 0x8F17 (startV [(VF, 3#8), (1, 10#8)])).readV VF = 9#8 ∧
      (ran 0x81F7 (startV [(1, 3#8), (VF, 10#8)])).readV 1 = 0xFE#8 := by decide

/-- AL29. -/
theorem test_shl :
    let t := ran 0x812E (startV [(1, 0x81#8), (2, 0x7F#8)])
    t.readV 1 = 2#8 ∧ t.readV VF = 1#8 := by decide

/-- AL31. -/
theorem test_shl_vf : (ran 0x8F0E (startV [(VF, 0x80#8)])).readV VF = 2#8 := by decide

/-- AL33. -/
theorem test_rnd_driven :
    let t := ran 0xC30F { State.reset with randByte := some 0xA7#8 }
    t.readV 3 = 7#8 ∧ t.randByte = none := by decide

/-- AL35: whatever the byte is, driven or free. -/
theorem test_rnd_free : ∀ b : Option Byte,
    (answerOr (exec (.rnd 3 0x00#8) { State.reset with randByte := b }) State.reset).readV 3 = 0#8 := by
  intro b
  simp [answerOr, exec, execRnd]

/-! ### Display (95_test_vectors.md 2.4, S6) -/

/-- The state of the display tests: bytes at 0x300, I there. -/
def startI (bytes : List Byte) (vs : List (Reg × Byte)) : State :=
  { (withBytes 0x300 bytes (startV vs)) with i := 0x300#16 }

/-- DS1, DS3. -/
theorem test_cls :
    let t := ran 0x0AE0 { (startV [(VF, 0x33#8)]) with fb := Vector.replicate 2048 true }
    Framebuffer.cell t.fb 63 31 = false ∧ t.redraw = true ∧ t.readV VF = 0x33#8 := by decide +kernel

/-- The second draw of S6: the two cells of the sprite go off, and VF says so. -/
theorem test_drw_toggles :
    let t := ran 0xD121 { (startI [0xC0#8] []) with
      fb := Framebuffer.toggle (Framebuffer.toggle State.reset.fb 0 0) 1 0 }
    Framebuffer.cell t.fb 0 0 = false ∧ Framebuffer.cell t.fb 1 0 = false ∧ t.readV VF = 1#8 := by
  decide +kernel

/-- DS7, DS8, DS10: the two checks, memory first. -/
theorem test_drw_faults :
    (ran 0xD125 (startV [(1, 61#8)])).fault = some ⟨.drawOffScreen, 0x200#16, some 0xD125#16, 64⟩ ∧
      (ran 0xD122 (startI [0x80#8, 0x80#8] [(1, 5#8), (2, 31#8)])).fault =
        some ⟨.drawOffScreen, 0x200#16, some 0xD122#16, 16389⟩ ∧
      (ran 0xD122 { (startV [(1, 63#8)]) with i := 0xFFF#16 }).fault =
        some ⟨.memoryOutOfRange, 0x200#16, some 0xD122#16, 0x1000⟩ := by decide +kernel

/-! ### Keypad and timers (95_test_vectors.md 2.5, S11) -/

/-- The state with some keys pressed. -/
def press (ks : List (Fin 16)) (s : State) : State :=
  ks.foldl (fun (s : State) (k : Fin 16) => { s with keys := s.keys.set k true }) s

/-- KT1, KT2, KT3. -/
theorem test_skp :
    (ran 0xE29E (press [7] (startV [(2, 7#8)]))).pc = 0x204#16 ∧ (ran 0xE29E (startV [(2, 7#8)])).pc = 0x202#16 ∧
      (ran 0xE29E (startV [(2, 0x10#8)])).fault =
        some ⟨.keyIndexOutOfRange, 0x200#16, some 0xE29E#16, 16⟩ := by decide

/-- KT4, KT5, KT6. -/
theorem test_sknp :
    (ran 0xE2A1 (startV [(2, 7#8)])).pc = 0x204#16 ∧ (ran 0xE2A1 (press [7] (startV [(2, 7#8)]))).pc = 0x202#16 ∧
      (ran 0xE2A1 (startV [(2, 0xFF#8)])).fault =
        some ⟨.keyIndexOutOfRange, 0x200#16, some 0xE2A1#16, 255⟩ := by decide

/-- KT7. -/
theorem test_ld_v_dt :
    let t := ran 0xF507 { State.reset with dt := 9#8 }
    t.readV 5 = 9#8 ∧ t.dt = 8#8 := by decide

/-- KT9: the wait, with its tick. -/
theorem test_ld_v_k_waits :
    let t := ran 0xF40A { (startV [(4, 0x77#8)]) with dt := 2#8 }
    t.pc = 0x200#16 ∧ t.readV 4 = 0x77#8 ∧ t.dt = 1#8 := by decide

/-- KT10. -/
theorem test_ld_v_k :
    let t := ran 0xF40A (press [3, 12] State.reset)
    t.readV 4 = 0x0C#8 ∧ t.pc = 0x202#16 := by decide

/-- KT12, KT14. -/
theorem test_ld_dt_v :
    (ran 0xF315 (startV [(3, 3#8)])).dt = 2#8 ∧ (ran 0xF315 { State.reset with dt := 7#8 }).dt = 0#8 := by decide

/-- KT15. -/
theorem test_ld_st_v : (ran 0xF418 (startV [(4, 0x10#8)])).st = 0x0F#8 := by decide

/-! ### Index and memory (95_test_vectors.md 2.6, S7) -/

/-- IM1. -/
theorem test_ld_i : (ran 0xAFFF State.reset).i = 0x0FFF#16 := by decide

/-- IM2, IM4. -/
theorem test_add_i :
    (ran 0xF21E { (startV [(2, 1#8)]) with i := 0x0FFF#16 }).readV VF = 1#8 ∧
      (ran 0xF21E { (startV [(2, 1#8), (VF, 9#8)]) with i := 0xFFFF#16 }).readV VF = 0#8 := by decide

/-- IM5: the sum, and then the flag, with X = F. -/
theorem test_add_i_vf :
    let t := ran 0xFF1E { (startV [(VF, 0x10#8)]) with i := 0x0100#16 }
    t.i = 0x0110#16 ∧ t.readV VF = 0#8 := by decide

/-- IM7. -/
theorem test_ld_f : (ran 0xF029 (startV [(0, 0xFF#8)])).i = 0x04FB#16 := by decide

/-- IM11. -/
theorem test_ld_b :
    let t := ran 0xF133 { (startV [(1, 157#8)]) with i := 0xFFD#16 }
    [t.readByte 0xFFD, t.readByte 0xFFE, t.readByte 0xFFF] = [1#8, 5#8, 7#8] ∧ t.i = 0xFFD#16 := by decide

/-- IM12. -/
theorem test_ld_b_fault :
    let t := ran 0xF133 { (startV [(1, 157#8)]) with i := 0xFFE#16 }
    t.fault = some ⟨.memoryOutOfRange, 0x200#16, some 0xF133#16, 0x1000⟩ ∧ t.readByte 0xFFE = 0#8 := by decide

/-- IM13. -/
theorem test_ld_mem_v :
    let t := ran 0xF055 { (startV [(0, 0xAB#8), (1, 0xCD#8)]) with i := 0x300#16 }
    t.readByte 0x300 = 0xAB#8 ∧ t.readByte 0x301 = 0#8 ∧ t.i = 0x301#16 := by decide

/-- IM15. -/
theorem test_ld_mem_v_fault :
    let t := ran 0xFF55 { (startV [(0, 0xAB#8)]) with i := 0xFF1#16 }
    t.fault = some ⟨.memoryOutOfRange, 0x200#16, some 0xFF55#16, 0x1000⟩ ∧ t.readByte 0xFF1 = 0#8 := by decide

/-- IM16, cut to four registers: V0 to V3, and not V4. -/
theorem test_ld_v_mem :
    let t := ran 0xF365 (startI [0x10#8, 0x11#8, 0x12#8, 0x13#8, 0x14#8] [])
    t.readV 0 = 0x10#8 ∧ t.readV 3 = 0x13#8 ∧ t.readV 4 = 0#8 ∧ t.i = 0x304#16 := by decide

/-- IM17. -/
theorem test_ld_v_mem_fault :
    (ran 0xF065 { State.reset with i := 0x1000#16 }).fault =
      some ⟨.memoryOutOfRange, 0x200#16, some 0xF065#16, 0x1000⟩ := by decide

/-! ### Witnesses: concrete states and operands that meet the hypotheses of the obligations, at the ends of the ranges
where clauses meet -/

/-- The state with an instruction word at `pc`. -/
def at_ (w : Nat) (s : State) : State := s.withFetchWord 16 w

theorem witness_DecodeOfEncodeIsTheInstruction :
    (Instr.drw 15 0 0xF#4).wellFormed = true ∧ (Instr.unknown8 0xF#4 0xF#4 0xF#4).wellFormed = true := by decide

/-- One instruction that completes, at the last address that fetches, and one that faults there. -/
theorem witness_StepRunsTheDecodedInstruction :
    (∃ (s : State) (i : Instr), s.fault = none ∧ s.pc.toNat = 0xFFE ∧
      decode [s.readByte s.pc.toNat, s.readByte (s.pc.toNat + 1)] = .ok i [] ∧ (after s).fault = none) ∧
    (∃ (s : State) (i : Instr), s.fault = none ∧ s.pc.toNat = 0xFFE ∧
      decode [s.readByte s.pc.toNat, s.readByte (s.pc.toNat + 1)] = .ok i [] ∧ (after s).fault ≠ none) :=
  ⟨⟨at_ 0x6001 { State.reset with pc := 0xFFE#16 }, .ldImm 0 1#8, by decide⟩,
    ⟨at_ 0x00EE { State.reset with pc := 0xFFE#16 }, .ret 0#4, by decide⟩⟩

theorem witness_FetchPastMemoryFaults : ∃ s : State, s.fault = none ∧ s.pc.toNat + 1 = 0x1000 :=
  ⟨{ State.reset with pc := 0xFFF#16 }, by decide⟩

/-- A Faulted state: the one after a fetch past memory. -/
def faultedState : State := after { State.reset with pc := 0xFFF#16 }

theorem witness_FaultedStepDoesNothing : faultedState.fault ≠ none := by decide

/-- The two shapes of a record: with a word, and the fetch fault's. -/
theorem witness_FaultsArePrecise :
    (∃ (s t : State) (r : FaultRecord), s.fault = none ∧ step s = .next t ∧ t.fault = some r ∧ r.opcode ≠ none) ∧
    (∃ (s t : State) (r : FaultRecord), s.fault = none ∧ step s = .next t ∧ t.fault = some r ∧ r.opcode = none) :=
  ⟨⟨at_ 0x00EE State.reset, _, ⟨.stackUnderflow, 0x200#16, some 0x00EE#16, 0⟩, by decide, step_after (by decide),
      by decide, by decide⟩,
    ⟨{ State.reset with pc := 0xFFF#16 }, _, ⟨.fetchOutOfRange, 0xFFF#16, none, 0xFFF⟩, by decide,
      step_after (by decide), by decide, by decide⟩⟩

theorem running_of {s : State} (h : (decide (s.fault = none) && decide (s.pc.toNat ≤ 0xFFE)) = true) :
    s.running := by
  simpa [State.running] using h

/-- The state whose draw falls off the screen: one row of one pixel, in column 64. -/
def offScreenState : State := at_ 0xD121 (startI [0x40#8] [(1, 63#8), (2, 31#8)])

theorem offScreenState_first : offScreenState.firstBitOff 63 31 1 0 1 := by
  refine ⟨by decide, by decide, ?_, by decide, ?_⟩
  · show (offScreenState.readByte (offScreenState.i.toNat + 0)).getLsbD (7 - 1) = true
    decide
  · intro r' c' hr hc hb h
    have h0 : r' = 0 := by omega
    have h1 : c' = 0 := by omega
    subst h0 h1
    decide

/-- Each cause's condition holds of a state at the end of its range, and the step from it faults with that cause. -/
theorem witness_StepFaultsExactlyUnderItsConditions :
    (∃ s : State, s.faultCondition .fetchOutOfRange 0xFFF ∧ (after s).fault.map (·.cause) = some .fetchOutOfRange) ∧
    (∃ s : State, s.faultCondition .stackOverflow 16 ∧ (after s).fault.map (·.cause) = some .stackOverflow) ∧
    (∃ s : State, s.faultCondition .stackUnderflow 0 ∧ (after s).fault.map (·.cause) = some .stackUnderflow) ∧
    (∃ s : State, s.faultCondition .memoryOutOfRange 0x1000 ∧
      (after s).fault.map (·.cause) = some .memoryOutOfRange) ∧
    (∃ s : State, s.faultCondition .drawOffScreen (64 + 512 * 31) ∧
      (after s).fault.map (·.cause) = some .drawOffScreen) ∧
    (∃ s : State, s.faultCondition .keyIndexOutOfRange 16 ∧
      (after s).fault.map (·.cause) = some .keyIndexOutOfRange) := by
  refine ⟨⟨{ State.reset with pc := 0xFFF#16 }, ⟨by decide, by decide⟩, by decide⟩,
    ⟨at_ 0x2400 { State.reset with sp := 16 },
      ⟨running_of (by decide), ⟨0x400#12, by decide⟩, by decide, rfl⟩, by decide⟩,
    ⟨at_ 0x00EE State.reset, ⟨running_of (by decide), ⟨0#4, by decide⟩, by decide, rfl⟩, by decide⟩,
    ⟨at_ 0xF155 { State.reset with i := 0xFFF#16 }, ⟨running_of (by decide), 2, 1, ?_, by decide, by decide,
      by decide, ?_⟩, by decide⟩,
    ⟨offScreenState, ⟨running_of (by decide), 1, 2, 1#4, 0, 1, by decide, offScreenState_first, by decide⟩,
      by decide +kernel⟩,
    ⟨at_ 0xE29E (startV [(2, 16#8)]), ⟨running_of (by decide), 2, .inl (by decide), by decide, by decide⟩,
      by decide⟩⟩
  · exact .inr (.inr (.inl ⟨1, by decide, by decide⟩))
  · intro j hj
    have h0 : j = 0 := by omega
    subst h0
    decide

/-- The hypotheses of a statement about a completed step, with an instruction of the given kind at `pc`. -/
def Completes (p : State → Prop) : Prop := ∃ s t : State, s.running ∧ step s = .next t ∧ t.fault = none ∧ p s

theorem completes {p : State → Prop} (s : State) (hp : p s)
    (h : (decide (s.fault = none) && decide (s.pc.toNat ≤ 0xFFE) && isNext (step s) &&
      decide ((after s).fault = none)) = true) : Completes p := by
  simp only [Bool.and_eq_true, decide_eq_true_eq] at h
  exact ⟨s, after s, ⟨h.1.1.1, h.1.1.2⟩, step_after h.1.2, h.2, hp⟩

/-- A jump, a return, a skip, a key wait and a plain instruction, each from a state where it completes. -/
theorem witness_NextPcIsOneOfTheFiveForms :
    Completes (fun s => s.nextInstr = .jp 0xFFF#12) ∧
    Completes (fun s => s.nextInstr = .call 0xFFF#12 ∧ s.sp = 15) ∧
    Completes (fun s => s.nextInstr = .jpV0 0xFFF#12 ∧ s.readV 0 = 0xFF#8) ∧
    Completes (fun s => s.nextInstr = .ret 0#4 ∧ s.sp = 16) ∧
    Completes (fun s => s.nextInstr = .seImm 0 0#8 ∧ s.pc = 0xFFE#16) ∧
    Completes (fun s => s.nextInstr = .ldVK 0) ∧ Completes (fun s => s.nextInstr = .ldImm 0 0#8) :=
  ⟨completes (at_ 0x1FFF State.reset) (by decide) (by decide),
    completes (at_ 0x2FFF { State.reset with sp := 15 }) (by decide) (by decide),
    completes (at_ 0xBFFF (startV [(0, 0xFF#8)])) (by decide) (by decide),
    completes (at_ 0x00EE { State.reset with sp := 16 }) (by decide) (by decide),
    completes (at_ 0x3000 { State.reset with pc := 0xFFE#16 }) (by decide) (by decide),
    completes (at_ 0xF00A State.reset) (by decide) (by decide),
    completes (at_ 0x6000 State.reset) (by decide) (by decide)⟩

theorem witness_RegistersChangeOnlyByTheirWriters :
    Completes (fun s => mayWrite s.nextInstr 4 = false ∧ s.nextInstr = .ldVMem 3) :=
  completes (at_ 0xF365 State.reset) (by decide) (by decide)

/-- A byte changed by each of the two stores, at the last address each stores to. -/
theorem witness_MemoryChangesOnlyByTheStores :
    (∃ s t : State, step s = .next t ∧ s.nextInstr = .ldB 1 ∧ t.readByte 0x302 ≠ s.readByte 0x302) ∧
    (∃ s t : State, step s = .next t ∧ s.nextInstr = .ldMemV 1 ∧ t.readByte 0x301 ≠ s.readByte 0x301) :=
  ⟨⟨at_ 0xF133 { (startV [(1, 157#8)]) with i := 0x300#16 }, _, step_after (by decide), by decide, by decide⟩,
    ⟨at_ 0xF155 { (startV [(1, 157#8)]) with i := 0x300#16 }, _, step_after (by decide), by decide, by decide⟩⟩

theorem witness_DisplayChangesOnlyByClearAndDraw :
    Completes (fun s => s.nextInstr = .cls 0#4) ∧ Completes (fun s => s.nextInstr = .drw 0 0 0#4) ∧
      Completes (fun s => s.nextInstr = .ldImm 0 0#8) :=
  ⟨completes (at_ 0x00E0 State.reset) (by decide) (by decide +kernel),
    completes (at_ 0xD000 State.reset) (by decide) (by decide),
    completes (at_ 0x6000 State.reset) (by decide) (by decide)⟩

theorem witness_StackChangesOnlyByCallAndReturn :
    Completes (fun s => s.nextInstr = .call 0x400#12) ∧ Completes (fun s => s.nextInstr = .ret 0#4) ∧
      Completes (fun s => s.nextInstr = .ldImm 0 0#8) :=
  ⟨completes (at_ 0x2400 { State.reset with sp := 15 }) (by decide) (by decide),
    completes (at_ 0x00EE { State.reset with sp := 1 }) (by decide) (by decide),
    completes (at_ 0x6000 State.reset) (by decide) (by decide)⟩

/-- Each of the five writers of `I` changes it. -/
theorem witness_IndexChangesOnlyByItsWriters :
    ∀ w ∈ [0xA001, 0xF11E, 0xF129, 0xF055, 0xF065], ∃ s t : State, s = at_ w (startV [(1, 1#8)]) ∧
      step s = .next t ∧ t.i ≠ s.i := by
  intro w hw
  refine ⟨_, _, rfl, step_after ?_, ?_⟩ <;> revert hw <;> revert w <;> decide

theorem witness_NoStepWritesTheKeypad :
    ∃ s t : State, step s = .next t ∧ s.keys[3] = true ∧ s.nextInstr = .ldVK 4 :=
  ⟨at_ 0xF40A (press [3] State.reset), _, step_after (by decide), by decide, by decide⟩

/-- A step that completes, with both timers running, and one that faults. -/
theorem witness_TimersTickOncePerCompletedStep :
    (∃ s t : State, step s = .next t ∧ t.fault = none ∧ s.nextInstr = .ldDtV 3 ∧ s.st = 1#8) ∧
    (∃ s t : State, step s = .next t ∧ t.fault ≠ none ∧ s.dt = 5#8) :=
  ⟨⟨at_ 0xF315 { (startV [(3, 3#8)]) with st := 1#8 }, _, step_after (by decide), by decide, by decide, by decide⟩,
    ⟨at_ 0x00EE { State.reset with dt := 5#8 }, _, step_after (by decide), by decide, by decide⟩⟩

theorem witness_DiagnosticExactlyOnUnknownOpcodes :
    (∃ s t : State, step s = .next t ∧ s.running ∧ s.nextInstr.isUnknown = true) ∧
    (∃ s t : State, step s = .next t ∧ ¬ s.running) :=
  ⟨⟨State.reset, _, step_after (by decide), running_of (by decide), by decide⟩,
    ⟨faultedState, _, step_after (by decide), fun h => absurd h.1 (by decide)⟩⟩

/-- A fetch, a fetch whose instruction faults, and a step without one. -/
theorem witness_LatchHoldsTheFetchedWord :
    (∃ s t : State, step s = .next t ∧ s.running ∧ t.fault ≠ none) ∧
    (∃ s t : State, step s = .next t ∧ ¬ s.running ∧ s.opcode ≠ 0#16) :=
  ⟨⟨at_ 0x00EE State.reset, _, step_after (by decide), running_of (by decide), by decide⟩,
    ⟨{ faultedState with opcode := 0x1234#16 }, _, step_after (by decide), fun h => absurd h.1 (by decide),
      by decide⟩⟩

/-- A word of each of the four groups. -/
theorem witness_UnknownWordsRunTheUnknownArm :
    (∃ s : State, s.running ∧ s.nextWord.toNat = 0x00E1) ∧ (∃ s : State, s.running ∧ s.nextWord.toNat = 0x812F) ∧
      (∃ s : State, s.running ∧ s.nextWord.toNat = 0xE29F) ∧ (∃ s : State, s.running ∧ s.nextWord.toNat = 0xF075) :=
  ⟨⟨at_ 0x00E1 State.reset, running_of (by decide), by decide⟩,
    ⟨at_ 0x812F State.reset, running_of (by decide), by decide⟩,
    ⟨at_ 0xE29F State.reset, running_of (by decide), by decide⟩,
    ⟨at_ 0xF075 { State.reset with pc := 0xFFE#16 }, running_of (by decide), by decide⟩⟩

theorem witness_RandomPortIsSampledByRndAlone :
    ∃ (s t : State) (b : Option Byte) (n : Nat), (s.running → ∀ x nn, s.nextInstr ≠ .rnd x nn) ∧
      step s = .next t ∧ s.randByte ≠ b ∧ s.draws ≠ n := by
  refine ⟨at_ 0x6007 State.reset, _, some 7#8, 3, ?_, step_after (by decide), by decide, by decide⟩
  intro _ x nn h
  have h' : (at_ 0x6007 State.reset).nextInstr = .ldImm 0 7#8 := by decide
  rw [h'] at h
  cases h

/-- V[X] = 1, the least value that is written, and read back as 0. -/
theorem witness_TimerWriteThenReadLosesOneTick :
    ∃ s t u : State, s.running ∧ s.nextInstr = .ldDtV 3 ∧ (s.readV 3).toNat = 1 ∧ step s = .next t ∧ t.running ∧
      t.nextInstr = .ldVDt 4 ∧ step t = .next u :=
  ⟨withBytes 0x200 [0xF3#8, 0x15#8, 0xF4#8, 0x07#8] (startV [(3, 1#8)]), _, _, running_of (by decide), by decide,
    by decide, step_after (by decide), running_of (by decide), by decide, step_after (by decide)⟩

/-- FX55 stores the next instruction, at the last addresses of memory. -/
theorem witness_StoredBytesAreFetched :
    ∃ s t : State, s.running ∧ s.nextInstr = .ldMemV 1 ∧ s.i.toNat + 1 = 0xFFF ∧ s.pc.toNat + 2 = s.i.toNat + 0 ∧
      step s = .next t :=
  ⟨at_ 0xF155 { (startV [(0, 0x60#8), (1, 7#8)]) with pc := 0xFFC#16, i := 0xFFE#16 }, _, running_of (by decide),
    by decide, by decide, by decide, step_after (by decide)⟩

/-- A state at the ends of the invariant's ranges: memory listed, `pc` at 0x10FE, a saved address of 0xFFE. -/
def edgeState : State :=
  { (withBytes 0x300 [1#8, 2#8] State.reset) with
    pc := 0x10FE#16, sp := 1, stack := State.reset.stack.set 0 0x0FFE#16 }

theorem edgeState_inv : edgeState.Inv :=
  ⟨by decide, by decide, by decide, fun _ h => (by cases h), fun _ h => (by cases h)⟩

theorem witness_StepKeepsTheInvariant : ∃ s t : State, s.Inv ∧ step s = .next t ∧ s.mem.cells ≠ [] :=
  ⟨edgeState, _, edgeState_inv, step_after (by decide), by decide⟩

theorem witness_EveryRunKeepsTheInvariant :
    ∃ (events : List Event) (s t : State), s.Inv ∧ runEvents events s = .next t ∧ 3 < events.length :=
  ⟨[.step, .host (.setKey 3 true), .host (.driveRand 7#8), .host (.boot [0x60#8, 0x07#8])], edgeState, _, edgeState_inv,
    next_of_isNext (s := edgeState) (by decide), by decide⟩

theorem witness_OnlyBootLeavesTheFaultedState :
    ∃ (events : List Event) (s t : State), s.fault ≠ none ∧ (∀ image, Event.host (.boot image) ∉ events) ∧
      runEvents events s = .next t ∧ 3 < events.length :=
  ⟨[.step, .host (.setKey 3 true), .host .redrawAck, .host (.driveRand 7#8), .step], faultedState, _, by decide,
    by intro image h; simp at h, next_of_isNext (s := faultedState) (by decide), by decide⟩

theorem witness_CanonicalMemoriesAreEqualData :
    ∃ m m' : Memory, m.wf = true ∧ m'.wf = true ∧ m.font = m'.font ∧ (∀ a, m.read a = m'.read a) ∧ m.cells ≠ [] :=
  ⟨edgeState.mem, edgeState.mem, by decide, by decide, rfl, fun _ => rfl, by decide⟩

/-- The longest image, and one byte more. -/
theorem witness_LoadCopiesTheImage :
    (∃ image : List Byte, image.length = 3584) ∧ (∃ image : List Byte, image.length = 3585) :=
  ⟨⟨List.replicate 3584 1#8, List.length_replicate⟩, ⟨List.replicate 3585 1#8, List.length_replicate⟩⟩

theorem witness_BootedCoreFetchesTheEntryPoint : ∃ rest : List Byte, rest.length = 3582 :=
  ⟨List.replicate 3582 1#8, List.length_replicate⟩

theorem witness_ReturnPopsTheSavedAddress :
    (∃ (k : Fin 16) (s : State), s.sp.val = k.val + 1 ∧ k = 0) ∧
    (∃ (k : Fin 16) (s : State), s.sp.val = k.val + 1 ∧ k = 15) ∧ (∃ s : State, s.sp = 0) :=
  ⟨⟨0, { State.reset with sp := 1 }, by decide⟩, ⟨15, { State.reset with sp := 16 }, by decide⟩,
    ⟨State.reset, rfl⟩⟩

theorem witness_CallPushesItsOwnAddress :
    (∃ (k : Fin 16) (s : State), s.sp.val = k.val ∧ k = 0) ∧
    (∃ (k : Fin 16) (s : State), s.sp.val = k.val ∧ k = 15) ∧ (∃ s : State, s.sp = 16) :=
  ⟨⟨0, State.reset, by decide⟩, ⟨15, { State.reset with sp := 15 }, by decide⟩,
    ⟨{ State.reset with sp := 16 }, rfl⟩⟩

/-- A call on the last free slot, and a callee that has changed a register. -/
theorem witness_ReturnResumesAfterTheCall :
    ∃ s t u : State, s.sp = 15 ∧ exec (.call 0x400#12) s = .next t ∧ u.sp = t.sp ∧ u.stack = t.stack ∧ u ≠ t :=
  ⟨{ State.reset with sp := 15 }, _, (answerOr (exec (.call 0x400#12) { State.reset with sp := 15 })
    State.reset).writeV 3 7#8, rfl, next_of_isNext (s := State.reset) (by decide), rfl, rfl,
    fun h => absurd (congrArg (fun x => x.readV 3) h) (by decide)⟩

/-- The four cases of the two registers being VF or not. -/
theorem witness_SubtractsSetTheFlagFirst :
    ((1 : Reg) ≠ VF ∧ (14 : Reg) ≠ VF) ∧ ((15 : Reg) = VF ∧ (14 : Reg) ≠ VF) ∧ ((14 : Reg) ≠ VF ∧ (15 : Reg) = VF) ∧
      ((15 : Reg) = VF ∧ (15 : Reg) = VF) := by decide

theorem witness_AddRegistersCarries : (14 : Reg) ≠ VF := by decide

theorem witness_ShiftsSetTheFlagFirst : (14 : Reg) ≠ VF ∧ (15 : Reg) = VF := by decide

theorem witness_RandomIsMaskedByTheImmediate :
    ∃ (s : State) (b : Byte), s.randByte = some b := ⟨{ State.reset with randByte := some 0xA7#8 }, 0xA7#8, rfl⟩

/-- The sprite in the last cell of the screen, from the last byte of memory. -/
def cornerState (fb : Framebuffer) : State :=
  { (withBytes 0xFFF [0x80#8] (startV [(1, 63#8), (2, 31#8)])) with i := 0xFFF#16, fb := fb }

theorem cornerState_bits (fb : Framebuffer) : ∀ r c, r < (1#4).toNat → c < 8 → (cornerState fb).spriteBit r c →
    ((cornerState fb).readV 1).toNat + c ≤ 63 ∧ ((cornerState fb).readV 2).toNat + r ≤ 31 := by
  intro r c hr hc hb
  have h0 : r = 0 := by simp at hr; exact hr
  subst h0
  have key : ∀ c < 8, ((cornerState State.reset.fb).readByte 0xFFF).getLsbD (7 - c) = true → c = 0 := by decide
  have h1 := key c hc hb
  subst h1
  exact ⟨by show 63 + 0 ≤ 63; decide, by show 31 + 0 ≤ 31; decide⟩

/-- A draw that completes in the last cell of the screen, over a cell that is off, and over one that is on. -/
theorem witness_DrawTogglesTheSpriteCells :
    ∀ fb ∈ [State.reset.fb, Vector.replicate 2048 true], ∃ s : State, s.fb = fb ∧
      (∀ r, r < (1#4).toNat → s.i.toNat + r ≤ 0xFFF) ∧
      (∀ r c, r < (1#4).toNat → c < 8 → s.spriteBit r c → (s.readV 1).toNat + c ≤ 63 ∧ (s.readV 2).toNat + r ≤ 31) ∧
      s.spriteBit 0 0 ∧ (s.readV 1).toNat = 63 ∧ (s.readV 2).toNat = 31 := by
  intro fb _
  refine ⟨cornerState fb, rfl, ?_, cornerState_bits fb, ?_, rfl, rfl⟩
  · intro r hr
    have h0 : r = 0 := by simp at hr; exact hr
    subst h0
    show 0xFFF + 0 ≤ 0xFFF
    decide
  · show ((cornerState State.reset.fb).readByte (0xFFF + 0)).getLsbD (7 - 0) = true
    decide

/-- The second row's address leaves memory; and a set bit leaves the screen. -/
theorem witness_DrawFaultsOnTheFirstOffender :
    (∃ (s : State) (r : Nat), r < (2#4).toNat ∧ s.i.toNat + r > 0xFFF ∧ ∀ j, j < r → s.i.toNat + j ≤ 0xFFF) ∧
    (∃ s : State, (∀ j, j < (1#4).toNat → s.i.toNat + j ≤ 0xFFF) ∧
      s.firstBitOff (s.readV 1).toNat (s.readV 2).toNat (1#4).toNat 0 1) := by
  refine ⟨⟨{ State.reset with i := 0xFFF#16 }, 1, by decide, by decide, by decide⟩, offScreenState, by decide, ?_⟩
  exact offScreenState_first

theorem witness_DrawingTwiceRestoresTheScreen :
    ∃ s t : State, s.fault = none ∧ exec (.drw 1 2 1#4) s = .next t ∧ t.fault = none ∧
      s.spriteBit 0 0 ∧ Framebuffer.cell s.fb ((s.readV 1).toNat + 0) ((s.readV 2).toNat + 0) = false :=
  ⟨cornerState State.reset.fb, _, by decide, next_of_isNext (s := State.reset) (by decide +kernel), by decide +kernel,
    by show ((cornerState State.reset.fb).readByte (0xFFF + 0)).getLsbD (7 - 0) = true; decide, by decide +kernel⟩

/-- Keys 0 and 15, the ends of the range, and 16, the first index past it. -/
theorem witness_KeySkipsReadTheSelectedKey :
    (∃ (s : State) (k : Fin 16), (s.readV 2).toNat = k.val ∧ k = 15) ∧
    (∃ (s : State) (k : Fin 16), (s.readV 2).toNat = k.val ∧ k = 0) ∧ (∃ s : State, 15 < (s.readV 2).toNat) :=
  ⟨⟨startV [(2, 15#8)], 15, by decide⟩, ⟨State.reset, 0, by decide⟩, ⟨startV [(2, 16#8)], by decide⟩⟩

/-- Key 15 the highest of two, key 0 the only one, and none. -/
theorem witness_KeyWaitTakesTheHighestPressedKey :
    (∃ (s : State) (k : Fin 16), s.keys[k] = true ∧ (∀ j : Fin 16, k < j → s.keys[j] = false) ∧ k = 15) ∧
    (∃ (s : State) (k : Fin 16), s.keys[k] = true ∧ (∀ j : Fin 16, k < j → s.keys[j] = false) ∧ k = 0) ∧
    (∃ s : State, ∀ k : Fin 16, s.keys[k] = false) :=
  ⟨⟨press [3, 15] State.reset, 15, by decide⟩, ⟨press [0] State.reset, 0, by decide⟩, ⟨State.reset, by decide⟩⟩

/-- The last `I` that fits, and the first that does not. -/
theorem witness_BcdStoresThreeDigits :
    (∃ s : State, s.i.toNat = 0xFFD) ∧ (∃ s : State, s.i.toNat = 0xFFE) :=
  ⟨⟨{ State.reset with i := 0xFFD#16 }, rfl⟩, ⟨{ State.reset with i := 0xFFE#16 }, rfl⟩⟩

theorem witness_RegisterDumpStoresAscending :
    (∃ s : State, s.i.toNat + (15 : Reg).val = 0xFFF) ∧ (∃ s : State, s.i.toNat + (15 : Reg).val = 0x1000) :=
  ⟨⟨{ State.reset with i := 0xFF0#16 }, rfl⟩, ⟨{ State.reset with i := 0xFF1#16 }, rfl⟩⟩

theorem witness_RegisterLoadReadsAscending :
    (∃ s : State, s.i.toNat + (0 : Reg).val = 0xFFF) ∧ (∃ s : State, s.i.toNat + (0 : Reg).val = 0x1000) :=
  ⟨⟨{ State.reset with i := 0xFFF#16 }, rfl⟩, ⟨{ State.reset with i := 0x1000#16 }, rfl⟩⟩

theorem witness_LoadGivesBackTheDump :
    ∃ s t u : State, s.i.toNat + (3 : Reg).val = 0xFFF ∧ exec (.ldMemV 3) s = .next t ∧ u.i = s.i ∧
      (∀ a, u.readByte a = t.readByte a) ∧ u.readV 3 ≠ s.readV 3 :=
  ⟨{ (startV [(3, 0x44#8)]) with i := 0xFFC#16 }, _,
    { (answerOr (exec (.ldMemV 3) { (startV [(3, 0x44#8)]) with i := 0xFFC#16 }) State.reset).writeV 3 0#8 with
      i := 0xFFC#16 },
    by decide, next_of_isNext (s := State.reset) (by decide), rfl, fun _ => rfl, by decide⟩

end Sys2Proof.Tests
end

section
/-! The steps that fault, and the obligation O9. -/

namespace Sys2Proof.Machine

@[simp] theorem State.withFault_finish (s : State) (c : Fault) (w : Option Word) (n : Nat) :
    (s.withFault c w n).finish = s.withFault c w n :=
  State.finish_of_fault rfl

/-- The inversion of a step that faults, the counterpart of `step_completed`: a fetch that leaves memory, or an
instruction that raised its cause on the state the fetch left and, being faulted, did not tick. -/
theorem step_faulted {s t : State} (h : step s = .next t) (hs : s.fault = none) (ht : t.fault ≠ none) :
    (0xFFE < s.pc.toNat ∧ t = s.fetchFault) ∨
      (s.running ∧ ∃ c n, t = s.fetched.withFault c (some s.nextWord) n) := by
  rcases step_cases h with ⟨r, hr, -⟩ | ⟨-, hp, rfl⟩ | ⟨hrun, e, he, rfl⟩
  · simp [hs] at hr
  · exact .inl ⟨hp, rfl⟩
  · rcases exec_fault_cases he with ⟨c, n, rfl⟩ | hfault
    · exact .inr ⟨hrun, c, n, by simp⟩
    · have hnone : e.fault = none := by rw [hfault, State.fetched_fault, hs]
      exact absurd (by simp [State.finish_of_running hnone, hnone]) ht

/-- Settles O9: each of the two ways a step can fault (`step_faulted`) sets the record on an otherwise known state. -/
theorem faultsArePrecise : Obligations.FaultsArePrecise := by
  intro s t r hs h ht
  rcases step_faulted h hs (by simp [ht]) with ⟨hp, rfl⟩ | ⟨⟨-, hp⟩, c, n, rfl⟩
  · cases ht
    exact ⟨rfl, .inr ⟨hp, rfl, rfl⟩⟩
  · cases ht
    exact ⟨rfl, .inl ⟨hp, rfl, rfl⟩⟩

end Sys2Proof.Machine
end

section
/-! What an instruction and a step leave unchanged, place by place. -/

namespace Sys2Proof.Machine

/-- A place an instruction may write or leave alone: a part of the state, one register, or FONT. -/
inductive Place where
  | part (p : Part)
  | reg (r : Reg)
  | font

/-- A place is the same in two states. -/
def Place.kept (s t : State) : Place → Prop
  | .part p => p.unchanged s t
  | .reg r => t.readV r = s.readV r
  | .font => t.mem.font = s.mem.font

/-- The parts an instruction may change, beside the registers of `mayWrite`; `fault` where it can raise one. -/
def changedParts : Instr → List Part
  | .jp _ | .seImm _ _ | .sneImm _ _ | .seReg _ _ _ | .sneReg _ _ _ | .jpV0 _ | .ldImm _ _ | .addImm _ _ | .ldReg _ _
  | .orReg _ _ | .andReg _ _ | .xorReg _ _ | .addReg _ _ | .subReg _ _ | .shr _ _ | .subnReg _ _ | .shl _ _
  | .ldVDt _ | .ldVK _ => [.pc]
  | .cls _ => [.pc, .redraw, .framebuffer]
  | .drw _ _ _ => [.pc, .redraw, .framebuffer, .fault]
  | .ret _ => [.pc, .stackPointer, .fault]
  | .call _ => [.pc, .stackPointer, .stackSlots, .fault]
  | .skp _ | .sknp _ => [.pc, .fault]
  | .ldDtV _ => [.pc, .delayTimer]
  | .ldStV _ => [.pc, .soundTimer]
  | .ldI _ | .addI _ | .ldF _ => [.pc, .index]
  | .rnd _ _ => [.pc, .random]
  | .ldB _ => [.pc, .memory, .fault]
  | .ldMemV _ => [.pc, .index, .memory, .fault]
  | .ldVMem _ => [.pc, .index, .fault]
  | .unknown0 _ _ | .unknown8 _ _ _ | .unknownE _ _ | .unknownF _ _ => [.pc, .diag]

/-- The places an instruction may change. -/
def mayChange (i : Instr) : Place → Prop
  | .part p => p ∈ changedParts i
  | .reg r => mayWrite i r = true
  | .font => False

theorem mayChange_iff {i : Instr} {q : Place} :
    mayChange i q ↔ (∃ p ∈ changedParts i, q = .part p) ∨ ∃ r, mayWrite i r = true ∧ q = .reg r := by
  cases q <;> simp [mayChange]

/-! ### One rule per update: it keeps every place but its own -/

section
variable {s t : State} {q : Place}

@[simp] theorem Place.kept_refl : q.kept s s := by
  rcases q with (_ | _) | _ | _ <;> simp [Place.kept, Part.unchanged]

@[simp] theorem Place.kept_writeV {r : Reg} {b : Byte} (h : q ≠ .reg r) : q.kept s (t.writeV r b) ↔ q.kept s t := by
  rcases q with (_ | _) | r' | _
  case reg => rw [Place.kept, State.writeV_readV_other _ _ (by simpa using h), Place.kept]
  all_goals rfl

@[simp] theorem Place.kept_setPc {w : Word} (h : q ≠ .part .pc) : q.kept s (t.setPc w) ↔ q.kept s t := by
  rcases q with (_ | _) | _ | _ <;> simp [Place.kept, Part.unchanged] at h ⊢

@[simp] theorem Place.kept_advance (h : q ≠ .part .pc) : q.kept s t.advance ↔ q.kept s t :=
  Place.kept_setPc h

@[simp] theorem Place.kept_skipIf {b : Bool} (h : q ≠ .part .pc) : q.kept s (t.skipIf b) ↔ q.kept s t := by
  rw [State.skipIf_eq, Place.kept_setPc h]

@[simp] theorem Place.kept_setI {w : Word} (h : q ≠ .part .index) : q.kept s (t.setI w) ↔ q.kept s t := by
  rcases q with (_ | _) | _ | _ <;> simp [Place.kept, Part.unchanged] at h ⊢

@[simp] theorem Place.kept_setDt {b : Byte} (h : q ≠ .part .delayTimer) : q.kept s (t.setDt b) ↔ q.kept s t := by
  rcases q with (_ | _) | _ | _ <;> simp [Place.kept, Part.unchanged] at h ⊢

@[simp] theorem Place.kept_setSt {b : Byte} (h : q ≠ .part .soundTimer) : q.kept s (t.setSt b) ↔ q.kept s t := by
  rcases q with (_ | _) | _ | _ <;> simp [Place.kept, Part.unchanged] at h ⊢

@[simp] theorem Place.kept_writeByte {a : Nat} {b : Byte} (h : q ≠ .part .memory) :
    q.kept s (t.writeByte a b) ↔ q.kept s t := by
  rcases q with (_ | _) | _ | _ <;> simp [Place.kept, Part.unchanged] at h ⊢

@[simp] theorem Place.kept_pushPc {hsp : t.sp.val < 16} (h : q ≠ .part .stackPointer) (h' : q ≠ .part .stackSlots) :
    q.kept s (t.pushPc hsp) ↔ q.kept s t := by
  rcases q with (_ | _) | _ | _ <;> simp [Place.kept, Part.unchanged] at h h' ⊢

@[simp] theorem Place.kept_popSlot (h : q ≠ .part .stackPointer) : q.kept s t.popSlot ↔ q.kept s t := by
  rcases q with (_ | _) | _ | _ <;> simp [Place.kept, Part.unchanged] at h ⊢

@[simp] theorem Place.kept_showFb {fb : Framebuffer} (h : q ≠ .part .redraw) (h' : q ≠ .part .framebuffer) :
    q.kept s (t.showFb fb) ↔ q.kept s t := by
  rcases q with (_ | _) | _ | _ <;> simp [Place.kept, Part.unchanged] at h h' ⊢

@[simp] theorem Place.kept_afterDraw (h : q ≠ .part .random) : q.kept s t.afterDraw ↔ q.kept s t := by
  rcases q with (_ | _) | _ | _ <;> simp [Place.kept, Part.unchanged] at h ⊢

@[simp] theorem Place.kept_withFault {c : Fault} {w : Option Word} {n : Nat} (h : q ≠ .part .fault) :
    q.kept s (t.withFault c w n) ↔ q.kept s t := by
  rcases q with (_ | _) | _ | _ <;> simp [Place.kept, Part.unchanged] at h ⊢

@[simp] theorem Place.kept_emitUnknown (h : q ≠ .part .diag) : q.kept s t.emitUnknown ↔ q.kept s t := by
  rcases q with (_ | _) | _ | _ <;> simp [Place.kept, Part.unchanged] at h ⊢

@[simp] theorem Place.kept_clearDiag (h : q ≠ .part .diag) : q.kept s t.clearDiag ↔ q.kept s t := by
  rcases q with (_ | _) | _ | _ <;> simp [Place.kept, Part.unchanged] at h ⊢

@[simp] theorem Place.kept_fetched (h : q ≠ .part .opcode) (h' : q ≠ .part .diag) :
    q.kept s.fetched t ↔ q.kept s t := by
  rcases q with (_ | _) | _ | _ <;> simp [Place.kept, Part.unchanged] at h h' ⊢

@[simp] theorem Place.kept_timerTick (h : q ≠ .part .delayTimer) (h' : q ≠ .part .soundTimer) :
    q.kept s t.timerTick ↔ q.kept s t := by
  rcases q with (_ | _) | _ | _ <;> simp [Place.kept, Part.unchanged] at h h' ⊢

@[simp] theorem Place.kept_finish (h : q ≠ .part .delayTimer) (h' : q ≠ .part .soundTimer) :
    q.kept s t.finish ↔ q.kept s t := by
  rw [State.finish_eq]
  split
  · rfl
  · exact Place.kept_timerTick h h'

@[simp] theorem Place.kept_storeDigits {base : Nat} {v : Byte} (h : q ≠ .part .memory) :
    q.kept s (t.storeDigits base v) ↔ q.kept s t := by
  simp [State.storeDigits, h]

@[simp] theorem Place.kept_storeRegs {n : Nat} (h : q ≠ .part .memory) (h' : q ≠ .part .index) :
    q.kept s (t.storeRegs n) ↔ q.kept s t := by
  induction n with
  | zero => rfl
  | succ n ih => simp [State.storeRegs, h, h', ih]

theorem Place.kept_loadRegs {n : Nat} (h : q ≠ .part .index) (h' : ∀ r : Reg, r.val < n → q ≠ .reg r)
    (hn : n ≤ 16) : q.kept s (t.loadRegs n) ↔ q.kept s t := by
  induction n with
  | zero => rfl
  | succ n ih =>
    have hreg : q ≠ .reg (regAt n) := h' _ (by rw [(regAt_eq_iff (by omega) _).1 rfl]; omega)
    simp [State.loadRegs, h, hreg, ih (fun r hr => h' r (by omega)) (by omega)]

@[simp] theorem Place.kept_drawSprite {ps : List Pixel} (h : q ≠ .part .pc) (h' : q ≠ .reg VF)
    (hr : q ≠ .part .redraw) (hf : q ≠ .part .framebuffer) : q.kept s (t.drawSprite ps) ↔ q.kept s t := by
  simp [State.drawSprite, h, h', hr, hf]

@[simp] theorem Place.kept_unknownOpcode (h : q ≠ .part .pc) (h' : q ≠ .part .diag) :
    q.kept s t.unknownOpcode ↔ q.kept s t := by
  simp [State.unknownOpcode, h, h']

end

/-- An instruction keeps every place it is not listed as changing, whether it completes or faults. -/
theorem exec_kept {i : Instr} {s t : State} {q : Place} (h : exec i s = .next t) (hq : ¬ mayChange i q) :
    q.kept s t := by
  rw [mayChange_iff] at hq
  cases i <;> simp [changedParts, mayWrite] at hq
  case ret g => rcases execRet_cases (g := g) h with ⟨-, rfl⟩ | ⟨-, rfl⟩ <;> simp [hq]
  case call => rcases execCall_cases h with ⟨-, rfl⟩ | ⟨-, rfl⟩ <;> simp [hq]
  case drw => rcases execDrw_cases h with ⟨-, -, rfl⟩ | ⟨-, ⟨p, -, rfl⟩ | ⟨-, rfl⟩⟩ <;> simp [hq]
  case skp => rcases execSkp_cases h with ⟨-, rfl⟩ | ⟨-, rfl⟩ <;> simp [hq]
  case sknp => rcases execSknp_cases h with ⟨-, rfl⟩ | ⟨-, rfl⟩ <;> simp [hq]
  case ldVK => rcases execLdVK_cases h with ⟨rfl, -⟩ | ⟨-, -, rfl⟩ <;> simp [hq]
  case ldB => rcases execLdB_cases h with ⟨-, rfl⟩ | ⟨-, rfl⟩ <;> simp [hq]
  case ldMemV => rcases execLdMemV_cases h with ⟨-, rfl⟩ | ⟨-, rfl⟩ <;> simp [hq]
  case ldVMem x =>
    rcases execLdVMem_cases h with ⟨-, rfl⟩ | ⟨-, rfl⟩
    · simp [hq]
    · obtain ⟨⟨hpc, hindex, -⟩, hreg⟩ := hq
      rw [Place.kept_advance hpc, Place.kept_loadRegs hindex (fun r hr => hreg r (Nat.lt_succ_iff.1 hr)) x.isLt]
      exact Place.kept_refl
  all_goals cases h; simp [hq]

/-- A place that the instruction keeps is kept by the whole step, but for the latch, the diagnostic, the fault record
and the timers, which the phases around the instruction write. -/
theorem step_kept {s t : State} {q : Place} (h : step s = .next t) (hq : s.running → ¬ mayChange s.nextInstr q)
    (hphase : ∀ p ∈ [Part.opcode, .diag, .fault, .delayTimer, .soundTimer], q ≠ .part p) : q.kept s t := by
  simp only [List.mem_cons, List.not_mem_nil, or_false, ne_eq, forall_eq_or_imp, forall_eq] at hphase
  rcases step_cases h with ⟨-, -, rfl⟩ | ⟨-, -, rfl⟩ | ⟨hrun, e, he, rfl⟩
  · simp [hphase]
  · simp [hphase, State.fetchFault]
  · have hkept := exec_kept he (hq hrun)
    simpa [hphase] using hkept

/-- A step that faults keeps every place but the latch, the diagnostic and the fault record. -/
theorem step_faulted_kept {s t : State} {q : Place} (h : step s = .next t) (hs : s.fault = none) (ht : t.fault ≠ none)
    (hq : ∀ p ∈ [Part.opcode, .diag, .fault], q ≠ .part p) : q.kept s t := by
  simp only [List.mem_cons, List.not_mem_nil, or_false, ne_eq, forall_eq_or_imp, forall_eq] at hq
  obtain ⟨hopcode, hdiag, hfault⟩ := hq
  rcases step_faulted h hs ht with ⟨-, rfl⟩ | ⟨-, c, n, rfl⟩
  · simp [State.fetchFault, hdiag, hfault]
  · rw [Place.kept_withFault hfault, ← Place.kept_fetched hopcode hdiag]
    exact Place.kept_refl

end Sys2Proof.Machine
end

section
/-! Which instructions and steps change a register, `I`, the keypad, the latch, the display and the stack: the
obligations O12, O14, O15, O16, O17 and O20. -/

namespace Sys2Proof.Machine

/-- The inversion of a step from a running state. -/
theorem step_of_running {s t : State} (h : step s = .next t) (hs : s.running) :
    ∃ e, exec s.nextInstr s.fetched = .next e ∧ t = e.finish := by
  obtain ⟨hnone, hpc⟩ := hs
  rcases step_cases h with ⟨r, hr, -⟩ | ⟨-, hp, -⟩ | ⟨-, hexec⟩
  · simp [hnone] at hr
  · omega
  · exact hexec

/-- A step that fetches nothing clears the diagnostic of a Faulted core, or raises the fetch fault. -/
theorem step_of_not_running {s t : State} (h : step s = .next t) (hs : ¬ s.running) :
    t = s.clearDiag ∨ t = s.fetchFault := by
  rcases step_cases h with ⟨-, -, ht⟩ | ⟨-, -, ht⟩ | ⟨hrun, -⟩
  · exact .inl ht
  · exact .inr ht
  · exact absurd hrun hs

/-- Settles O12: the listed writers of a register are the instructions that may change it. -/
theorem registersChangeOnlyByTheirWriters : Obligations.RegistersChangeOnlyByTheirWriters := by
  intro s t r _ h hr
  exact step_kept (q := .reg r) h (fun _ => by simp [mayChange, hr]) (by simp)

/-! ### The instructions that may change a part -/

theorem mayChange_index_iff {i : Instr} : mayChange i (.part .index) ↔
    (∃ a, i = .ldI a) ∨ ∃ x, i = .addI x ∨ i = .ldF x ∨ i = .ldMemV x ∨ i = .ldVMem x := by
  cases i <;> simp [mayChange, changedParts]

theorem mayChange_framebuffer_iff {i : Instr} :
    mayChange i (.part .framebuffer) ↔ (∃ g, i = .cls g) ∨ ∃ x y n, i = .drw x y n := by
  cases i <;> simp [mayChange, changedParts]

theorem mayChange_redraw_iff {i : Instr} :
    mayChange i (.part .redraw) ↔ mayChange i (.part .framebuffer) := by
  cases i <;> simp [mayChange, changedParts]

theorem mayChange_stackPointer_iff {i : Instr} :
    mayChange i (.part .stackPointer) ↔ (∃ a, i = .call a) ∨ ∃ g, i = .ret g := by
  cases i <;> simp [mayChange, changedParts]

theorem mayChange_stackSlots_iff {i : Instr} : mayChange i (.part .stackSlots) ↔ ∃ a, i = .call a := by
  cases i <;> simp [mayChange, changedParts]

theorem not_mayChange_keys {i : Instr} : ¬ mayChange i (.part .keys) := by
  cases i <;> simp [mayChange, changedParts]

theorem not_mayChange_opcode {i : Instr} : ¬ mayChange i (.part .opcode) := by
  cases i <;> simp [mayChange, changedParts]

/-- Settles O16: a step of any other instruction keeps `I`, and so does one that runs none. -/
theorem indexChangesOnlyByItsWriters : Obligations.IndexChangesOnlyByItsWriters := by
  intro s t h hi
  by_contra hn
  exact hi (step_kept (q := .part .index) h (fun hrun hmay => hn ⟨hrun, mayChange_index_iff.1 hmay⟩) (by simp))

/-- Settles O17: neither place is in any instruction's list, and no phase of the step writes it. -/
theorem noStepWritesTheKeypad : Obligations.NoStepWritesTheKeypad := fun _ _ h =>
  ⟨step_kept (q := .part .keys) h (fun _ => not_mayChange_keys) (by simp),
    step_kept (q := .font) h (by simp [mayChange]) (by simp)⟩

/-! ### The latch -/

@[simp] theorem State.finish_opcode (s : State) : s.finish.opcode = s.opcode := by
  rw [State.finish_eq]; split <;> rfl

@[simp] theorem State.finish_redraw (s : State) : s.finish.redraw = s.redraw := by
  rw [State.finish_eq]; split <;> rfl

/-- Settles O20: no instruction writes the latch, so a running step leaves the fetched word there. -/
theorem latchHoldsTheFetchedWord : Obligations.LatchHoldsTheFetchedWord := by
  intro s t h
  refine ⟨fun hs => ?_, fun hs => ?_⟩
  · obtain ⟨e, he, rfl⟩ := step_of_running h hs
    have hlatch : e.opcode = s.nextWord := exec_kept he not_mayChange_opcode
    rw [State.finish_opcode, hlatch, State.nextWord, wordOfBytes_toNat]
  · rcases step_of_not_running h hs with rfl | rfl <;> rfl

/-! ### The display -/

/-- 00E0 cannot fault, so every running step of it sets `redraw`. -/
theorem step_cls_redraw {s t : State} {g : Nibble} (h : step s = .next t) (hs : s.running)
    (hi : s.nextInstr = .cls g) : t.redraw = true := by
  obtain ⟨e, he, rfl⟩ := step_of_running h hs
  rw [hi] at he
  cases he
  rw [State.finish_redraw]
  rfl

theorem step_drw_redraw {s t : State} {x y : Reg} {n : Nibble} (h : step s = .next t) (hs : s.running)
    (hi : s.nextInstr = .drw x y n) (ht : t.fault = none) : t.redraw = true := by
  obtain ⟨e, he, hf, rfl⟩ := step_completed h hs ht
  rw [hi] at he
  rcases execDrw_cases he with ⟨-, -, rfl⟩ | ⟨-, ⟨p, -, rfl⟩ | ⟨-, rfl⟩⟩
  · cases hf
  · cases hf
  · rfl

/-- Settles O14: a step that draws sets `redraw`; any other is of another instruction, or of a DXYN that faults. -/
theorem displayChangesOnlyByClearAndDraw : Obligations.DisplayChangesOnlyByClearAndDraw := by
  intro s t hs h
  refine ⟨?_, fun hn => ?_⟩
  · rintro (⟨g, hi⟩ | ⟨x, y, n, hi, ht⟩)
    · exact step_cls_redraw h hs hi
    · exact step_drw_redraw h hs hi ht
  · by_cases ht : t.fault = none
    · have hfb : ¬ mayChange s.nextInstr (.part .framebuffer) := fun hmay => hn <|
        (mayChange_framebuffer_iff.1 hmay).imp_right fun ⟨x, y, n, hi⟩ => ⟨x, y, n, hi, ht⟩
      exact ⟨step_kept (q := .part .framebuffer) h (fun _ => hfb) (by simp),
        step_kept (q := .part .redraw) h (fun _ => mayChange_redraw_iff.not.2 hfb) (by simp)⟩
    · exact ⟨step_faulted_kept (q := .part .framebuffer) h hs.1 ht (by simp),
        step_faulted_kept (q := .part .redraw) h hs.1 ht (by simp)⟩

/-! ### The stack -/

theorem step_call_stack {s t : State} {a : Addr12} (h : step s = .next t) (hs : s.running)
    (hi : s.nextInstr = .call a) (ht : t.fault = none) :
    t.sp.val = s.sp.val + 1 ∧ ∀ k : Fin 16, k.val ≠ s.sp.val → t.stack[k] = s.stack[k] := by
  obtain ⟨e, he, hf, rfl⟩ := step_completed h hs ht
  rw [hi] at he
  rcases execCall_cases he with ⟨-, rfl⟩ | ⟨hsp, rfl⟩
  · cases hf
  · exact ⟨rfl, fun k hk => Vector.getElem_set_ne hsp k.isLt hk.symm⟩

theorem step_ret_sp {s t : State} {g : Nibble} (h : step s = .next t) (hs : s.running)
    (hi : s.nextInstr = .ret g) (ht : t.fault = none) : t.sp.val + 1 = s.sp.val := by
  obtain ⟨e, he, hf, rfl⟩ := step_completed h hs ht
  rw [hi] at he
  rcases execRet_cases (g := g) he with ⟨-, rfl⟩ | ⟨hsp, rfl⟩
  · cases hf
  · exact Nat.succ_pred_eq_of_ne_zero hsp

/-- Settles O15: the slots are in the list of 2NNN alone, `sp` in those of 2NNN and 00EE. -/
theorem stackChangesOnlyByCallAndReturn : Obligations.StackChangesOnlyByCallAndReturn := by
  intro s t hs h
  split
  next a hi => exact step_call_stack h hs hi
  next g hi =>
    exact ⟨step_kept (q := .part .stackSlots) h (fun _ => by simp [mayChange_stackSlots_iff, hi]) (by simp),
      step_ret_sp h hs hi⟩
  next hcall hret =>
    have hsp : ¬ mayChange s.nextInstr (.part .stackPointer) := by
      simpa [mayChange_stackPointer_iff] using ⟨hcall, hret⟩
    have hslots : ¬ mayChange s.nextInstr (.part .stackSlots) := by
      simpa [mayChange_stackSlots_iff] using hcall
    exact ⟨step_kept (q := .part .stackPointer) h (fun _ => hsp) (by simp),
      step_kept (q := .part .stackSlots) h (fun _ => hslots) (by simp)⟩

end Sys2Proof.Machine
end

section
/-! The next `pc` of a step that completes, and the obligation O11. -/

namespace Sys2Proof.Machine

theorem zextAddr_toNat (a : Addr12) : (zextAddr a).toNat = a.toNat := by
  rw [zextAddr, BitVec.toNat_setWidth]; omega

theorem zextByte_toNat (b : Byte) : (zextByte b).toNat = b.toNat := by
  rw [zextByte, BitVec.toNat_setWidth]; omega

/-- The sum of BNNN stays within 16 bits: it is at most 0x10FE (41_control_flow.md R117). -/
theorem zextAddr_add_zextByte_toNat (a : Addr12) (b : Byte) : (zextAddr a + zextByte b).toNat = a.toNat + b.toNat := by
  rw [BitVec.toNat_add, zextAddr_toNat, zextByte_toNat]; omega

@[simp] theorem State.storeRegs_pc (s : State) (n : Nat) : (s.storeRegs n).pc = s.pc := by
  rw [State.storeRegs_frame]

@[simp] theorem State.loadRegs_pc (s : State) (n : Nat) : (s.loadRegs n).pc = s.pc := by
  rw [State.loadRegs_frame]

section
variable {s : State} (hpc : s.pc.toNat ≤ 0xFFE)
include hpc

/-- From a `pc` that fetches, neither sum of 40_cycle.md R94 leaves 16 bits. -/
theorem State.advance_pc_toNat : s.advance.pc.toNat = s.pc.toNat + 2 := by
  rw [State.advance_pc]; bv_omega

theorem State.skip_pc_toNat : s.skip.pc.toNat = s.pc.toNat + 4 := by
  rw [State.skip_pc]; bv_omega

theorem State.skipIf_pc_toNat (taken : Bool) :
    (s.skipIf taken).pc.toNat = s.pc.toNat + 2 ∨ (s.skipIf taken).pc.toNat = s.pc.toNat + 4 := by
  cases taken
  · exact .inl (State.advance_pc_toNat hpc)
  · exact .inr (State.skip_pc_toNat hpc)

end

/-- Settles O11, by the instruction that completed: a jump, a skip, FX0A, or one that advances. -/
theorem nextPcIsOneOfTheFiveForms : Obligations.NextPcIsOneOfTheFiveForms := by
  intro s t hs h ht
  obtain ⟨e, he, hf, rfl⟩ := step_completed h hs ht
  have hpc : s.fetched.pc.toNat ≤ 0xFFE := hs.2
  generalize s.nextInstr = i at he ⊢
  cases i
  case jp a => cases he; exact zextAddr_toNat a
  case call a =>
    rcases execCall_cases he with ⟨-, rfl⟩ | ⟨hsp, rfl⟩
    · cases hf
    · exact zextAddr_toNat a
  case jpV0 a => cases he; exact zextAddr_add_zextByte_toNat a (s.readV 0)
  case ret g =>
    rcases execRet_cases (g := g) he with ⟨-, rfl⟩ | ⟨hsp, rfl⟩
    · cases hf
    · exact ⟨⟨s.sp.val - 1, by omega⟩, (Nat.succ_pred_eq_of_ne_zero hsp).symm, rfl⟩
  case seImm | sneImm | seReg | sneReg => cases he; exact State.skipIf_pc_toNat hpc _
  case skp =>
    rcases execSkp_cases he with ⟨-, rfl⟩ | ⟨-, rfl⟩
    · cases hf
    · exact State.skipIf_pc_toNat hpc _
  case sknp =>
    rcases execSknp_cases he with ⟨-, rfl⟩ | ⟨-, rfl⟩
    · cases hf
    · exact State.skipIf_pc_toNat hpc _
  case ldVK =>
    rcases execLdVK_cases he with ⟨rfl, hnone⟩ | ⟨k, -, rfl⟩
    · have hkeys (k : Fin 16) : s.keys[k] = false :=
        (s.key_eq k.isLt).symm.trans (State.lastPressed_none.1 hnone k k.isLt)
      exact .inr ⟨rfl, hkeys⟩
    · exact .inl (State.advance_pc_toNat hpc)
  case drw =>
    rcases execDrw_cases he with ⟨-, -, rfl⟩ | ⟨-, ⟨p, -, rfl⟩ | ⟨-, rfl⟩⟩
    · cases hf
    · cases hf
    · exact State.advance_pc_toNat hpc
  case ldB =>
    rcases execLdB_cases he with ⟨-, rfl⟩ | ⟨-, rfl⟩
    · cases hf
    · exact State.advance_pc_toNat hpc
  case ldMemV =>
    rcases execLdMemV_cases he with ⟨-, rfl⟩ | ⟨-, rfl⟩
    · cases hf
    · simpa using State.advance_pc_toNat hpc
  case ldVMem =>
    rcases execLdVMem_cases he with ⟨-, rfl⟩ | ⟨-, rfl⟩
    · cases hf
    · simpa using State.advance_pc_toNat hpc
  all_goals cases he; exact State.advance_pc_toNat hpc

end Sys2Proof.Machine
end

section
/-! What reset and `init` leave, and the obligations O26 and O30. -/

namespace Sys2Proof.Machine

theorem State.initial_inv (font : Font) : (State.initial font).Inv where
  memCanonical := Memory.initial_wf font
  pcBound := by simp [State.initial]
  savedBound k := by simp [State.initial]
  faultFits r hr := by cases hr
  diagFits d hd := by cases hd

/-- Settles O26: reset is `State.initial` of the default FONT. -/
theorem resetMeetsTheInvariant : Obligations.ResetMeetsTheInvariant :=
  ⟨State.initial_inv defaultFont, State.initial_inv⟩

/-- After `init` no cell is listed, so every byte reads as its initial contents. -/
theorem State.init_readByte (s : State) (a : Nat) : s.init.readByte a = s.mem.initialByte a := rfl

/-- Row `r` of glyph `g` is byte `5g + r`, its pixels in the high nibble (10_state.md R34). -/
theorem Memory.initialByte_glyph (m : Memory) (g : Fin 16) (r : Fin 5) :
    (m.initialByte (5 * g.val + r.val)).toNat = (m.font[g][r]).toNat * 16 := by
  have hglyph : (5 * g.val + r.val) / 5 = g.val := by omega
  have hrow : (5 * g.val + r.val) % 5 = r.val := by omega
  rw [Memory.initialByte, dif_pos (by omega)]
  simp only [hglyph, hrow]
  exact append_toNat _ 0#4

theorem Memory.initialByte_of_le (m : Memory) {a : Nat} (h : 0x050 ≤ a) : m.initialByte a = 0#8 := by
  rw [Memory.initialByte, dif_neg (by omega)]

/-- Settles O30: only memory, which reads as its initial contents, needs more than evaluation. -/
theorem initLeavesTheResetValues : Obligations.InitLeavesTheResetValues := fun s =>
  ⟨fun r => Vector.getElem_replicate r.isLt, rfl, rfl, rfl, fun k => Vector.getElem_replicate k.isLt, rfl, rfl, rfl,
    rfl, fun x y _ _ => Framebuffer.cell_clear x y, fun k => Vector.getElem_replicate k.isLt, rfl,
    s.mem.initialByte_glyph, fun _ ha _ => s.mem.initialByte_of_le ha⟩

end Sys2Proof.Machine
end

section
/-! What the stores do to memory, and the obligations O13 and O24. -/

namespace Sys2Proof.Machine

theorem mayChange_memory_iff {i : Instr} :
    mayChange i (.part .memory) ↔ (∃ x, i = .ldB x) ∨ ∃ x, i = .ldMemV x := by
  cases i <;> simp [mayChange, changedParts]

@[simp] theorem State.finish_readByte (s : State) (a : Nat) : s.finish.readByte a = s.readByte a := by
  rw [State.finish_eq]; split <;> rfl

/-! ### The bytes a store changes -/

section
variable {s t : State} {x : Reg} {a : Nat}

theorem execLdB_changes (h : execLdB x s = .next t) (ha : t.readByte a ≠ s.readByte a) :
    s.i.toNat ≤ a ∧ a ≤ s.i.toNat + 2 := by
  rcases execLdB_cases h with ⟨-, rfl⟩ | ⟨hrange, rfl⟩
  · simp at ha
  · by_contra hout
    refine ha ?_
    rw [State.advance_readByte, State.storeDigits_readByte _ _ _ hrange, if_neg (by omega), if_neg (by omega),
      if_neg (by omega)]

theorem execLdMemV_changes (h : execLdMemV x s = .next t) (ha : t.readByte a ≠ s.readByte a) :
    s.i.toNat ≤ a ∧ a ≤ s.i.toNat + x.val := by
  rcases execLdMemV_cases h with ⟨-, rfl⟩ | ⟨hrange, rfl⟩
  · simp at ha
  · by_contra hout
    refine ha ?_
    rw [State.advance_readByte, State.storeRegs_readByte _ _ hrange x.isLt, if_neg (by omega)]

end

/-- Settles O13: any other step keeps memory (`step_kept`), and each store changes bytes of its own range alone. -/
theorem memoryChangesOnlyByTheStores : Obligations.MemoryChangesOnlyByTheStores := by
  intro s t a h ha
  have hstore : s.running ∧ mayChange s.nextInstr (.part .memory) := by
    by_contra hn
    have hkept := step_kept (q := .part .memory) h (fun hrun hmay => hn ⟨hrun, hmay⟩) (by simp)
    exact ha (hkept a)
  obtain ⟨hrun, hmay⟩ := hstore
  obtain ⟨e, he, rfl⟩ := step_of_running h hrun
  rw [State.finish_readByte] at ha
  rcases mayChange_memory_iff.1 hmay with ⟨x, hi⟩ | ⟨x, hi⟩ <;> rw [hi] at he
  · obtain ⟨hlow, hhigh⟩ := execLdB_changes he ha
    exact ⟨hrun, hlow, .inl ⟨x, hi, hhigh⟩⟩
  · obtain ⟨hlow, hhigh⟩ := execLdMemV_changes he ha
    exact ⟨hrun, hlow, .inr ⟨x, hi, hhigh⟩⟩

/-! ### Fetching what FX55 stored -/

/-- The store loop leaves register `q` at `I + q`. -/
theorem State.storeRegs_readByte_stored (s : State) {n : Nat} (h : s.i.toNat + n ≤ 4096) (hn : n ≤ 16) {q : Reg}
    (hq : q.val < n) : (s.storeRegs n).readByte (s.i.toNat + q.val) = s.readV q := by
  rw [State.storeRegs_readByte _ _ h hn, if_pos (by omega), Nat.add_sub_cancel_left, regAt_val]

/-- A step of FX55 whose range lies in memory completes, with the whole range stored. -/
theorem step_ldMemV {s t : State} {x : Reg} (h : step s = .next t) (hs : s.running) (hi : s.nextInstr = .ldMemV x)
    (hrange : s.i.toNat + x.val ≤ 0xFFF) : t = (s.fetched.storeRegs (x.val + 1)).advance.timerTick := by
  obtain ⟨e, he, rfl⟩ := step_of_running h hs
  rw [hi] at he
  rcases execLdMemV_cases he with ⟨hout, -⟩ | ⟨-, rfl⟩
  · rw [State.fetched_i] at hout
    omega
  · exact State.finish_of_running (by simpa using hs.1)

/-- Settles O24: the next `pc` is the address `I + k`, so the two bytes fetched are those stored from `V[k]` and
`V[k+1]`. -/
theorem storedBytesAreFetched : Obligations.StoredBytesAreFetched := by
  intro s t x k hk hs hi hrange hpc h
  have ht := step_ldMemV h hs hi hrange
  have hnext : t.pc.toNat = s.i.toNat + k := by
    rw [ht, ← hpc, State.timerTick_pc, State.advance_pc_toNat (by simpa using hs.2), State.storeRegs_pc,
      State.fetched_pc]
  have hbyte (q : Reg) (hq : q.val ≤ x.val) : t.readByte (s.i.toNat + q.val) = s.readV q := by
    rw [ht]
    exact State.storeRegs_readByte_stored s.fetched (Nat.succ_le_succ hrange) x.isLt (Nat.lt_succ_of_le hq)
  refine ⟨⟨?_, by omega⟩, ?_⟩
  · rw [ht]
    simpa using hs.1
  · rw [State.nextWord, hnext]
    exact congrArg₂ wordOfBytes (hbyte ⟨k, by omega⟩ (Nat.le_of_succ_le hk)) (hbyte ⟨k + 1, by omega⟩ hk)

end Sys2Proof.Machine
end

section
/-! The canonical form of memory determines the data, and the obligation O29. -/

namespace Sys2Proof.Machine

theorem mem_of_cellAt {cs : List Host.Cell} {a : Nat} {v : Byte} (h : cellAt cs a = some v) : (a, v) ∈ cs := by
  induction cs with
  | nil => cases h
  | cons c rest ih =>
    rw [cellAt] at h
    split at h
    next ha => cases h; exact ha ▸ List.mem_cons_self
    next => exact List.mem_cons_of_mem _ (ih h)

theorem cellsRise_cons {low a : Nat} {v : Byte} {rest : List Host.Cell} :
    cellsRise low ((a, v) :: rest) = true ↔ low ≤ a ∧ cellsRise (a + 1) rest = true := by
  simp [cellsRise]

/-- A rising list does not begin above an address that another list with the same byte there begins with. -/
theorem le_of_cellAt_eq {k k' : Nat} {w w' : Byte} {rest rest' : List Host.Cell}
    (hr' : cellsRise (k' + 1) rest' = true) (h : cellAt ((k, w) :: rest) k = cellAt ((k', w') :: rest') k) :
    k' ≤ k := by
  by_contra hlt
  have hnone : cellAt ((k', w') :: rest') k = none :=
    cellAt_below (low := k') (cellsRise_cons.2 ⟨le_rfl, hr'⟩) (by omega)
  rw [hnone] at h
  simp [cellAt] at h

/-- Rising lists of cells that list the same byte at every address are equal. -/
theorem cells_ext {cs cs' : List Host.Cell} {low low' : Nat} (hr : cellsRise low cs = true)
    (hr' : cellsRise low' cs' = true) (h : ∀ a, cellAt cs a = cellAt cs' a) : cs = cs' := by
  induction cs generalizing cs' low low' with
  | nil =>
    cases cs' with
    | nil => rfl
    | cons c' rest' => simpa [cellAt] using h c'.1
  | cons c rest ih =>
    obtain ⟨k, w⟩ := c
    cases cs' with
    | nil => simpa [cellAt] using h k
    | cons c' rest' =>
      obtain ⟨k', w'⟩ := c'
      obtain ⟨-, hrest⟩ := cellsRise_cons.1 hr
      obtain ⟨-, hrest'⟩ := cellsRise_cons.1 hr'
      obtain rfl : k = k' := le_antisymm (le_of_cellAt_eq hrest (h k').symm) (le_of_cellAt_eq hrest' (h k))
      have hw : w = w' := by simpa [cellAt] using h k
      have htail (a : Nat) : cellAt rest a = cellAt rest' a := by
        by_cases ha : a = k
        · rw [cellAt_below hrest (by omega), cellAt_below hrest' (by omega)]
        · simpa [cellAt, ha] using h a
      rw [hw, ih hrest hrest' htail]

/-- In canonical form the cells are a function of what memory reads as: an address is listed exactly where it does not
read as its initial contents. -/
theorem Memory.cellAt_cells {m : Memory} (h : m.wf = true) (a : Nat) :
    cellAt m.cells a = if m.read a = m.initialByte a then none else some (m.read a) := by
  obtain ⟨-, hcells⟩ := m.wf_iff.1 h
  cases hc : cellAt m.cells a with
  | none => simp [Memory.read, hc]
  | some v =>
    obtain ⟨-, hne⟩ := hcells _ (mem_of_cellAt hc)
    have hread : m.read a = v := by simp [Memory.read, hc]
    rw [hread, if_neg hne]

/-- Settles O29: the same FONT and the same reads list the same byte at every address. -/
theorem canonicalMemoriesAreEqualData : Obligations.CanonicalMemoriesAreEqualData := by
  intro m m' hm hm' hfont hread
  have hinitial (a : Nat) : m.initialByte a = m'.initialByte a := by simp [Memory.initialByte, hfont]
  obtain ⟨hrise, -⟩ := m.wf_iff.1 hm
  obtain ⟨hrise', -⟩ := m'.wf_iff.1 hm'
  have hcells : m.cells = m'.cells := cells_ext hrise hrise' fun a => by
    rw [Memory.cellAt_cells hm, Memory.cellAt_cells hm', hread, hinitial]
  exact congrArg₂ Memory.mk hfont hcells

end Sys2Proof.Machine
end

section
/-! The decoder and the encoder are inverse to each other, and the obligations O1, O2 and O4. -/

namespace Sys2Proof

/-! ### Decoding an encoded instruction -/

/-- The selectors of a format reach the decoder as they stand in the word, so each constructor takes its own branch;
an unknown-opcode term takes the last one because its selector is none that its group defines. -/
theorem decodeWord_encode {i : Instr} (h : i.wellFormed = true) : decodeWord (encode i) = i := by
  cases i with
  | unknown0 x nn => simpa [decodeWord, encode] using decodeGroup0_unknown (by simpa [Instr.wellFormed] using h)
  | unknown8 x y k => simpa [decodeWord, encode] using decodeGroup8_unknown (by simpa [Instr.wellFormed] using h)
  | unknownE x nn => simpa [decodeWord, encode] using decodeGroupE_unknown (by simpa [Instr.wellFormed] using h)
  | unknownF x nn => simpa [decodeWord, encode] using decodeGroupF_unknown (by simpa [Instr.wellFormed] using h)
  | _ => simp [decodeWord, encode, decodeGroup0, decodeGroup8, decodeGroupE, decodeGroupF]

/-- Settles O1: the two bytes of an instruction make up its word, and decoding that word gives the instruction. -/
theorem decodeOfEncodeIsTheInstruction : Obligations.DecodeOfEncodeIsTheInstruction := by
  intro i h
  rw [encodeBytes, decode_pair, wordOfBytes_split, decodeWord_encode h]

/-! ### Encoding a decoded word -/

/-- The instruction is a well-formed one whose word is `w`. -/
def Instr.Reads (i : Instr) (w : Word) : Prop := i.wellFormed = true ∧ encode i = w

/-! The handlers of the four groups that select further: each branch keeps the selector it has tested, and the last one
holds a selector that the group does not define. -/

theorem decodeGroup0_reads {x : Nibble} {nn : Byte} {w : Word} (hw : fmtXNN 0x0#4 x nn = w) :
    (decodeGroup0 x nn).Reads w := by
  unfold decodeGroup0
  split_ifs <;> simp_all [Instr.Reads, encode, Instr.wellFormed, group0Defined]

theorem decodeGroup8_reads {x y k : Nibble} {w : Word} (hw : fmtXYN 0x8#4 x y k = w) :
    (decodeGroup8 x y k).Reads w := by
  unfold decodeGroup8
  split_ifs <;> simp_all [Instr.Reads, encode, Instr.wellFormed, group8Defined]

theorem decodeGroupE_reads {x : Nibble} {nn : Byte} {w : Word} (hw : fmtXNN 0xE#4 x nn = w) :
    (decodeGroupE x nn).Reads w := by
  unfold decodeGroupE
  split_ifs <;> simp_all [Instr.Reads, encode, Instr.wellFormed, groupEDefined]

theorem decodeGroupF_reads {x : Nibble} {nn : Byte} {w : Word} (hw : fmtXNN 0xF#4 x nn = w) :
    (decodeGroupF x nn).Reads w := by
  unfold decodeGroupF
  split_ifs <;> simp_all [Instr.Reads, encode, Instr.wellFormed, groupFDefined]

section
variable {g : Nibble} {w : Word} (h : (fieldG w).toNat = g.toNat)
include h

theorem fmtNNN_of_group : fmtNNN g (fieldNNN w) = w := by
  rw [← BitVec.eq_of_toNat_eq h, fmtNNN_fields]

theorem fmtXNN_of_group : fmtXNN g (fieldX w) (fieldNN w) = w := by
  rw [← BitVec.eq_of_toNat_eq h, fmtXNN_fields]

theorem fmtXYN_of_group : fmtXYN g (fieldX w) (fieldY w) (fieldN w) = w := by
  rw [← BitVec.eq_of_toNat_eq h, fmtXYN_fields]

end

/-- Each of the 16 groups takes all fields of its format into the instruction. -/
theorem decodeWord_reads (w : Word) : (decodeWord w).Reads w := by
  unfold decodeWord
  split
  case h_1 hg => exact decodeGroup0_reads (fmtXNN_of_group hg)
  case h_9 hg => exact decodeGroup8_reads (fmtXYN_of_group hg)
  case h_15 hg => exact decodeGroupE_reads (fmtXNN_of_group hg)
  case h_16 =>
    have hg : (fieldG w).toNat = 0xF := by have := (fieldG w).isLt; simp only [imp_false] at *; omega
    exact decodeGroupF_reads (fmtXNN_of_group hg)
  case h_2 hg | h_3 hg | h_11 hg | h_12 hg => exact ⟨rfl, fmtNNN_of_group hg⟩
  case h_6 hg | h_10 hg | h_14 hg => exact ⟨rfl, fmtXYN_of_group hg⟩
  case h_4 hg | h_5 hg | h_7 hg | h_8 hg | h_13 hg => exact ⟨rfl, fmtXNN_of_group hg⟩

theorem encode_decodeWord (w : Word) : encode (decodeWord w) = w := (decodeWord_reads w).2

/-- Settles O2: what the decoder reads is well formed and encodes to the word. -/
theorem encodeOfDecodeIsTheWord : Obligations.EncodeOfDecodeIsTheWord := decodeWord_reads

/-- Settles O4: the decoder computes on fixed words. -/
theorem sampleWordsDecode : Obligations.SampleWordsDecode := by
  unfold Obligations.SampleWordsDecode
  decide

end Sys2Proof
end

section
/-! The rows of the opcode map and the instruction the decoder reads, and the obligation O3. -/

namespace Sys2Proof

/-! ### What a row of each mask compares -/

theorem fieldNN_eq_iff {w w' : Word} : fieldNN w = fieldNN w' ↔ fieldY w = fieldY w' ∧ fieldN w = fieldN w' := by
  simp only [← BitVec.toNat_inj, fieldNN_toNat, fieldY_toNat, fieldN_toNat]
  omega

@[simp] theorem nibble_and_ones (n : Nibble) : n &&& 0xF#4 = n := BitVec.and_allOnes

section
variable (k : Nat) (b w : Word)

/-- The mask of the rows of groups 0, E and F. -/
theorem hits_group_and_lowByte_iff :
    OpcodeRow.hits ⟨k, b, 0xF0FF#16⟩ w = true ↔
      fieldG w = fieldG b ∧ fieldX b = 0#4 ∧ fieldNN w = fieldNN b := by
  rw [show 0xF0FF#16 = fmtXYN 0xF#4 0#4 0xF#4 0xF#4 from rfl, fieldNN_eq_iff]
  simp [OpcodeRow.hits_iff_fields, eq_comm (a := 0#4)]

/-- The mask of the rows of group 8. -/
theorem hits_group_and_lowNibble_iff :
    OpcodeRow.hits ⟨k, b, 0xF00F#16⟩ w = true ↔
      fieldG w = fieldG b ∧ fieldX b = 0#4 ∧ fieldY b = 0#4 ∧ fieldN w = fieldN b := by
  rw [show 0xF00F#16 = fmtXYN 0xF#4 0#4 0#4 0xF#4 from rfl]
  simp [OpcodeRow.hits_iff_fields, eq_comm (a := 0#4)]

/-- The mask of the groups that hold one instruction. -/
theorem hits_group_iff :
    OpcodeRow.hits ⟨k, b, 0xF000#16⟩ w = true ↔
      fieldG w = fieldG b ∧ fieldX b = 0#4 ∧ fieldY b = 0#4 ∧ fieldN b = 0#4 := by
  rw [show 0xF000#16 = fmtXYN 0xF#4 0#4 0#4 0#4 from rfl]
  simp [OpcodeRow.hits_iff_fields, eq_comm (a := 0#4)]

end

/-! ### A word matches the row of its instruction, and no other -/

/-- What a row compares is all that the decoder selects on, so the decoder takes the branch of the row. -/
theorem rowNumber_of_hits {row : OpcodeRow} {w : Word} (hrow : row ∈ opcodeRows) (h : row.hits w = true) :
    (decodeWord w).rowNumber = some row.number := by
  fin_cases hrow
  all_goals
    simp only [hits_group_and_lowByte_iff, hits_group_and_lowNibble_iff, hits_group_iff] at h
    simp only [decodeWord, h]
    rfl

/-- The encoding of an instruction has the selectors of the instruction's row, which the map holds at its number. -/
theorem exists_row_hits_encode {i : Instr} {n : Nat} (h : i.rowNumber = some n) :
    ∃ row, opcodeRows[n - 1]? = some row ∧ row.number = n ∧ row.hits (encode i) = true := by
  cases i <;> cases h
  all_goals
    refine ⟨_, rfl, rfl, ?_⟩
    simp only [hits_group_and_lowByte_iff, hits_group_and_lowNibble_iff, hits_group_iff, encode, fieldG_fmtNNN,
      fieldG_fmtXNN, fieldNN_fmtXNN, fieldG_fmtXYN, fieldN_fmtXYN]
    decide

theorem opcodeRows_eq_of_number_eq {row row' : OpcodeRow} (hrow : row ∈ opcodeRows) (hrow' : row' ∈ opcodeRows)
    (h : row.number = row'.number) : row = row' :=
  List.inj_on_of_nodup_map (f := OpcodeRow.number) (by decide) hrow hrow' h

theorem hits_iff_rowNumber {row : OpcodeRow} (hrow : row ∈ opcodeRows) (w : Word) :
    row.hits w = true ↔ (decodeWord w).rowNumber = some row.number := by
  refine ⟨rowNumber_of_hits hrow, fun h => ?_⟩
  obtain ⟨row', hget, hnum, hhits⟩ := exists_row_hits_encode h
  obtain rfl := opcodeRows_eq_of_number_eq (List.mem_of_getElem? hget) hrow hnum
  rwa [encode_decodeWord] at hhits

theorem isUnknown_iff_rowNumber_eq_none (i : Instr) : i.isUnknown = true ↔ i.rowNumber = none := by
  cases i <;> simp [Instr.isUnknown, Instr.rowNumber]

/-- A row number that an instruction has selects one row of the map. -/
theorem numbers_filter_rowNumber (i : Instr) :
    (opcodeRows.filter fun row => decide (i.rowNumber = some row.number)).map (·.number) = i.rowNumber.toList := by
  cases i <;> rfl

/-- Settles O3: of the rows of the map, a word matches those that have its instruction's number. -/
theorem decoderFollowsTheOpcodeMap : Obligations.DecoderFollowsTheOpcodeMap := by
  intro w
  have hnumbers : (opcodeRows.filter (·.hits w)).map (·.number) = (decodeWord w).rowNumber.toList := by
    rw [← numbers_filter_rowNumber]
    refine congrArg _ (List.filter_congr fun row hrow => ?_)
    rw [Bool.eq_iff_iff, hits_iff_rowNumber hrow, decide_eq_true_iff]
  refine ⟨hnumbers, ?_⟩
  rw [isUnknown_iff_rowNumber_eq_none, ← Option.toList_eq_nil_iff, ← hnumbers]
  simp [List.filter_eq_nil_iff]

end Sys2Proof
end

section
/-! One equation per path of a step, and the obligations O5, O6, O7 and O8. -/

namespace Sys2Proof.Machine

section
variable {s e : State}

theorem step_of_faulted (h : s.fault ≠ none) : step s = .next s.clearDiag := by
  obtain ⟨r, hr⟩ := Option.ne_none_iff_exists'.1 h
  simp [step, hr]

theorem step_of_pc_past_memory (h : s.fault = none) (hpc : 0xFFE < s.pc.toNat) : step s = .next s.fetchFault := by
  simp [step, h, State.fetch_none hpc]

theorem step_eq_finishResult_exec (h : s.running) : step s = finishResult (exec s.nextInstr s.fetched) := by
  obtain ⟨hnone, hpc⟩ := h
  simp only [step, hnone, State.fetch_some hpc, decode_pair]
  rfl

theorem step_of_exec (h : s.running) (he : exec s.nextInstr s.fetched = .next e) : step s = .next e.finish := by
  rw [step_eq_finishResult_exec h, he, finishResult_next]

end

/-- Settles O7: the Faulted check comes first, and clears the diagnostic alone. -/
theorem faultedStepDoesNothing : Obligations.FaultedStepDoesNothing := fun _ h => step_of_faulted h

/-- Settles O6: no word is fetched, so nothing reaches the latch. -/
theorem fetchPastMemoryFaults : Obligations.FetchPastMemoryFaults := fun _ h hpc =>
  step_of_pc_past_memory h (Nat.lt_of_succ_lt_succ hpc)

/-- Settles O5: the decoder reads those two bytes as the next instruction, and `finish` ticks unless it faulted. -/
theorem stepRunsTheDecodedInstruction : Obligations.StepRunsTheDecodedInstruction := by
  intro s i hs hpc hdecode
  obtain rfl : s.nextInstr = i := by
    rw [decode_pair] at hdecode
    cases hdecode
    rfl
  obtain ⟨e, he⟩ := exec_next s.nextInstr s.fetched
  have hstep := step_of_exec ⟨hs, hpc⟩ he
  refine ⟨e, he, fun hnone => ?_, fun hfault => ?_⟩
  · rw [hstep, State.finish_of_running hnone]
    rfl
  · obtain ⟨r, hr⟩ := Option.ne_none_iff_exists'.1 hfault
    rw [hstep, State.finish_of_fault hr]

theorem step_next (s : State) : ∃ t, step s = .next t := by
  by_cases hs : s.fault = none
  · by_cases hpc : s.pc.toNat ≤ 0xFFE
    · obtain ⟨e, he⟩ := exec_next s.nextInstr s.fetched
      exact ⟨_, step_of_exec ⟨hs, hpc⟩ he⟩
    · exact ⟨_, step_of_pc_past_memory hs (Nat.lt_of_not_le hpc)⟩
  · exact ⟨_, step_of_faulted hs⟩

/-- Settles O8: a step that fetches nothing ends in a Faulted state, the one it began in or the fetch fault's. -/
theorem everyStepAnswersANextState : Obligations.EveryStepAnswersANextState := by
  intro s
  obtain ⟨t, h⟩ := step_next s
  refine ⟨t, h, fun ht => ?_⟩
  rcases step_cases h with ⟨r, hr, rfl⟩ | ⟨-, -, rfl⟩ | ⟨hrun, -⟩
  · simp [hr] at ht
  · simp at ht
  · exact hrun

end Sys2Proof.Machine
end

section
/-! The unknown arm: which words reach it and what it does, and the obligations O21 and O58. -/

namespace Sys2Proof

/-- A selector is outside a group's list when its number is outside the list's numbers. -/
theorem contains_eq_false_of_toNat_notMem {n : Nat} {l : List (BitVec n)} {b : BitVec n}
    (h : b.toNat ∉ l.map BitVec.toNat) : l.contains b = false := by
  rw [List.contains_eq_mem, decide_eq_false_iff_not]
  exact fun hb => h (List.mem_map_of_mem hb)

/-- In each of the four groups that have unknown words (30_encoding.md R80), a selector outside the group's list falls
through to the unknown arm. -/
theorem decodeWord_isUnknown {w : Word}
    (hw : (fieldG w).toNat = 0x0 ∧ (fieldNN w).toNat ∉ group0Defined.map BitVec.toNat ∨
      (fieldG w).toNat = 0x8 ∧ (fieldN w).toNat ∉ group8Defined.map BitVec.toNat ∨
      (fieldG w).toNat = 0xE ∧ (fieldNN w).toNat ∉ groupEDefined.map BitVec.toNat ∨
      (fieldG w).toNat = 0xF ∧ (fieldNN w).toNat ∉ groupFDefined.map BitVec.toNat) :
    (decodeWord w).isUnknown = true := by
  rcases hw with ⟨hg, hout⟩ | ⟨hg, hout⟩ | ⟨hg, hout⟩ | ⟨hg, hout⟩ <;>
    replace hout := contains_eq_false_of_toNat_notMem hout
  · simp only [decodeWord, hg, decodeGroup0_unknown hout, Instr.isUnknown]
  · simp only [decodeWord, hg, decodeGroup8_unknown hout, Instr.isUnknown]
  · simp only [decodeWord, hg, decodeGroupE_unknown hout, Instr.isUnknown]
  · simp only [decodeWord, hg, decodeGroupF_unknown hout, Instr.isUnknown]

end Sys2Proof

namespace Sys2Proof.Machine

theorem exec_of_isUnknown {i : Instr} (h : i.isUnknown = true) (s : State) : exec i s = .next s.unknownOpcode := by
  cases i
  case unknown0 | unknown8 | unknownE | unknownF => rfl
  all_goals cases h

/-- Settles O21: such a word decodes to the unknown arm, which cannot fault, so the tick follows it. -/
theorem unknownWordsRunTheUnknownArm : Obligations.UnknownWordsRunTheUnknownArm := by
  intro s hs w hw
  have hunknown : s.nextInstr.isUnknown = true := by
    refine decodeWord_isUnknown ?_
    rw [fieldG_toNat, fieldNN_toNat, fieldN_toNat]
    exact hw
  rw [step_of_exec hs (exec_of_isUnknown hunknown s.fetched),
    State.finish_of_running (s := s.fetched.unknownOpcode) hs.1]
  rfl

theorem State.unknownOpcode_frame (s : State) : Frame [.pc, .diag] [] s s.unknownOpcode where
  parts p hp := by
    obtain ⟨hpc, hdiag⟩ : Place.part p ≠ .part .pc ∧ Place.part p ≠ .part .diag := by simpa using hp
    exact (Place.kept_unknownOpcode hpc hdiag).2 Place.kept_refl
  regs _ _ := rfl

theorem exec_unknown_reports {i : Instr} (h : i.isUnknown = true) (s : State) :
    ∃ t, exec i s = .next t ∧ t.diag = some ⟨s.opcode, s.pc⟩ ∧ t.pc.toNat = (s.pc.toNat + 2) % 65536 ∧
      Frame [.pc, .diag] [] s t :=
  ⟨_, exec_of_isUnknown h s, rfl, BitVec.toNat_add s.pc 2#16, s.unknownOpcode_frame⟩

/-- Settles O58: the four groups share one meaning. -/
theorem unknownArmsReportAndAdvance : Obligations.UnknownArmsReportAndAdvance := fun _ _ _ _ s =>
  ⟨exec_unknown_reports rfl s, exec_unknown_reports rfl s, exec_unknown_reports rfl s, exec_unknown_reports rfl s⟩

end Sys2Proof.Machine
end

section
/-! Every phase of a step keeps the invariant of the core, and the obligation O25. -/

namespace Sys2Proof.Machine

@[simp] theorem State.finish_mem (s : State) : s.finish.mem = s.mem := by
  rw [State.finish_eq]; split <;> rfl

@[simp] theorem State.finish_pc (s : State) : s.finish.pc = s.pc := by
  rw [State.finish_eq]; split <;> rfl

@[simp] theorem State.finish_stack (s : State) : s.finish.stack = s.stack := by
  rw [State.finish_eq]; split <;> rfl

@[simp] theorem State.finish_fault (s : State) : s.finish.fault = s.fault := by
  rw [State.finish_eq]; split <;> rfl

@[simp] theorem State.finish_diag (s : State) : s.finish.diag = s.diag := by
  rw [State.finish_eq]; split <;> rfl

/-! ### Memory stays in canonical form -/

@[simp] theorem State.skipIf_mem (s : State) (taken : Bool) : (s.skipIf taken).mem = s.mem := by
  rw [State.skipIf_eq, State.setPc_mem]

theorem exec_mem_wf {i : Instr} {s t : State} (h : exec i s = .next t) (hs : s.mem.wf = true) : t.mem.wf = true := by
  cases i
  case ret g => rcases execRet_cases (g := g) h with ⟨-, rfl⟩ | ⟨-, rfl⟩ <;> exact hs
  case call => rcases execCall_cases h with ⟨-, rfl⟩ | ⟨-, rfl⟩ <;> exact hs
  case seImm | sneImm | seReg | sneReg => cases h; rwa [State.skipIf_mem]
  case skp => rcases execSkp_cases h with ⟨-, rfl⟩ | ⟨-, rfl⟩ <;> simpa using hs
  case sknp => rcases execSknp_cases h with ⟨-, rfl⟩ | ⟨-, rfl⟩ <;> simpa using hs
  case drw => rcases execDrw_cases h with ⟨-, -, rfl⟩ | ⟨-, ⟨p, -, rfl⟩ | ⟨-, rfl⟩⟩ <;> exact hs
  case ldVK => rcases execLdVK_cases h with ⟨rfl, -⟩ | ⟨k, -, rfl⟩ <;> exact hs
  case ldB =>
    rcases execLdB_cases h with ⟨-, rfl⟩ | ⟨-, rfl⟩
    · exact hs
    · exact State.storeDigits_wf _ _ _ hs
  case ldMemV =>
    rcases execLdMemV_cases h with ⟨-, rfl⟩ | ⟨-, rfl⟩
    · exact hs
    · exact State.storeRegs_wf _ _ hs
  case ldVMem =>
    rcases execLdVMem_cases h with ⟨-, rfl⟩ | ⟨-, rfl⟩
    · exact hs
    · rwa [State.advance_mem, State.loadRegs_frame]
  all_goals cases h; exact hs

/-! ### `pc` and the saved addresses stay in their ranges -/

theorem step_pc_le {s t : State} (h : step s = .next t) (hs : s.running)
    (hsaved : ∀ k : Fin 16, s.stack[k].toNat ≤ 0xFFE) : t.pc.toNat ≤ 0x10FE := by
  have hpc := hs.2
  by_cases ht : t.fault = none
  · have hforms := nextPcIsOneOfTheFiveForms s t hs h ht
    split at hforms
    case h_1 a _ | h_2 a _ => have := a.isLt; omega
    case h_3 a _ => have := a.isLt; have := (s.readV 0).isLt; omega
    case h_4 =>
      obtain ⟨k, -, hk⟩ := hforms
      have := hsaved k
      bv_omega
    case h_11 =>
      rcases hforms with hnext | ⟨hstay, -⟩
      · omega
      · rw [hstay]; omega
    all_goals omega
  · have hkept : t.pc = s.pc := step_faulted_kept (q := .part .pc) h hs.1 ht (by simp)
    rw [hkept]
    omega

/-- Only 2NNN writes a slot, and what it saves is its own address, from which it was fetched. -/
theorem exec_saved_le {i : Instr} {s t : State} (h : exec i s = .next t) (hpc : s.pc.toNat ≤ 0xFFE)
    (hsaved : ∀ k : Fin 16, s.stack[k].toNat ≤ 0xFFE) (k : Fin 16) : t.stack[k].toNat ≤ 0xFFE := by
  by_cases hmay : mayChange i (.part .stackSlots)
  · obtain ⟨a, rfl⟩ := mayChange_stackSlots_iff.1 hmay
    rcases execCall_cases h with ⟨-, rfl⟩ | ⟨hsp, rfl⟩
    · exact hsaved k
    · simp only [State.setPc_stack, State.pushPc_stack, Fin.getElem_fin, Vector.getElem_set]
      split
      · exact hpc
      · exact hsaved k
  · have hkept : t.stack = s.stack := exec_kept h hmay
    rw [hkept]
    exact hsaved k

/-! ### A fault record fits the state it is in -/

/-- The range check records the lowest address past memory, one of at most 16 from `I` on. -/
theorem memoryOutOfRange_fits {s : State} {n : Nat} (h : 4096 < s.i.toNat + n) (hn : n ≤ 16) :
    FaultRecord.fits ⟨.memoryOutOfRange, s.pc, some s.opcode, max s.i.toNat 4096⟩ s :=
  by
  refine ⟨rfl, rfl, ?_⟩
  simp only
  omega

/-- The column of a pixel is below 512, so that `info` gives back both coordinates of the one off the screen. -/
theorem drawOffScreen_fits {s : State} {x y : Reg} {n : Nat} {p : Pixel}
    (h : firstOffScreen (s.spritePixels (s.readV x).toNat (s.readV y).toNat n) = some p) :
    FaultRecord.fits ⟨.drawOffScreen, s.pc, some s.opcode, offScreenInfo p⟩ s := by
  obtain ⟨hmem, hoff, -⟩ := (firstOffScreen_some (s.spritePixels_sorted _ _ _)).1 h
  obtain ⟨r, c, -, hc, -, rfl⟩ := State.mem_spritePixels.1 hmem
  rw [← Bool.not_eq_true, onScreen_iff] at hoff
  have := (s.readV x).isLt
  refine ⟨rfl, rfl, ?_⟩
  simp only [offScreenInfo]
  omega

theorem exec_fault_fits {i : Instr} {s t : State} {r : FaultRecord} (h : exec i s = .next t) (hs : s.fault = none)
    (hr : t.fault = some r) : r.fits t := by
  by_cases hmay : mayChange i (.part .fault)
  · cases i <;> simp [mayChange, changedParts] at hmay
    case ret g =>
      rcases execRet_cases (g := g) h with ⟨hsp, rfl⟩ | ⟨-, rfl⟩
      · cases hr; exact ⟨rfl, rfl, rfl, Fin.ext hsp⟩
      · simp [hs] at hr
    case call =>
      rcases execCall_cases h with ⟨hsp, rfl⟩ | ⟨hsp, rfl⟩
      · cases hr; exact ⟨rfl, rfl, rfl, Fin.ext hsp⟩
      · simp [hs] at hr
    case drw n =>
      rcases execDrw_cases h with ⟨-, hout, rfl⟩ | ⟨-, ⟨p, hp, rfl⟩ | ⟨-, rfl⟩⟩
      · cases hr; exact memoryOutOfRange_fits hout n.isLt.le
      · cases hr; exact drawOffScreen_fits hp
      · cases hs.symm.trans hr
    case skp x =>
      rcases execSkp_cases h with ⟨hk, rfl⟩ | ⟨-, rfl⟩
      · cases hr; exact ⟨rfl, rfl, hk, (s.readV x).isLt⟩
      · simp [hs] at hr
    case sknp x =>
      rcases execSknp_cases h with ⟨hk, rfl⟩ | ⟨-, rfl⟩
      · cases hr; exact ⟨rfl, rfl, hk, (s.readV x).isLt⟩
      · simp [hs] at hr
    case ldB =>
      rcases execLdB_cases h with ⟨hout, rfl⟩ | ⟨-, rfl⟩
      · cases hr; exact memoryOutOfRange_fits hout (by omega)
      · cases hs.symm.trans hr
    case ldMemV x =>
      rcases execLdMemV_cases h with ⟨hout, rfl⟩ | ⟨-, rfl⟩
      · cases hr; exact memoryOutOfRange_fits hout x.isLt
      · simp [hs] at hr
    case ldVMem x =>
      rcases execLdVMem_cases h with ⟨hout, rfl⟩ | ⟨-, rfl⟩
      · cases hr; exact memoryOutOfRange_fits hout x.isLt
      · simp [hs] at hr
  · have hkept : t.fault = s.fault := exec_kept h hmay
    simp [hkept, hs] at hr

/-! ### A diagnostic reports the latch -/

theorem mayChange_diag_iff {i : Instr} : mayChange i (.part .diag) ↔ i.isUnknown = true := by
  cases i <;> simp [mayChange, changedParts, Instr.isUnknown]

theorem exec_diag {i : Instr} {s t : State} (h : exec i s = .next t) :
    t.diag = if i.isUnknown then some ⟨s.opcode, s.pc⟩ else s.diag := by
  split
  next hunknown =>
    rw [exec_of_isUnknown hunknown] at h
    cases h
    rfl
  next hknown => exact exec_kept (q := .part .diag) h (mayChange_diag_iff.not.2 hknown)

/-! ### The step -/

/-- The invariant does not depend on the diagnostic of the step before. -/
theorem State.clearDiag_inv {s : State} (h : s.Inv) : s.clearDiag.Inv :=
  { h with diagFits := fun _ hd => by cases hd }

theorem State.fetchFault_inv {s : State} (h : s.Inv) (hpc : 0xFFE < s.pc.toNat) : s.fetchFault.Inv :=
  { h with
    faultFits := fun r hr => by cases hr; exact ⟨rfl, rfl, rfl, hpc⟩
    diagFits := fun _ hd => by cases hd }

theorem State.finish_inv_of_exec {s e : State} (h : s.Inv) (hs : s.running)
    (he : exec s.nextInstr s.fetched = .next e) : e.finish.Inv where
  memCanonical := by
    rw [State.finish_mem]
    exact exec_mem_wf he h.memCanonical
  pcBound := step_pc_le (step_of_exec hs he) hs h.savedBound
  savedBound k := by
    simpa using exec_saved_le he hs.2 h.savedBound k
  faultFits r hr := by
    rw [State.finish_fault] at hr
    rw [State.finish_of_fault hr]
    exact exec_fault_fits he hs.1 hr
  diagFits d hd := by
    have hlatch : e.opcode = s.nextWord := exec_kept he not_mayChange_opcode
    rw [State.finish_diag, exec_diag he] at hd
    rw [State.finish_opcode, hlatch]
    split at hd
    next hunknown => cases hd; exact ⟨rfl, hunknown⟩
    next => cases hd

/-- Settles O25, for each of the three paths of a step. -/
theorem stepKeepsTheInvariant : Obligations.StepKeepsTheInvariant := by
  intro s t hinv h
  rcases step_cases h with ⟨-, -, rfl⟩ | ⟨-, hpc, rfl⟩ | ⟨hrun, e, he, rfl⟩
  · exact State.clearDiag_inv hinv
  · exact State.fetchFault_inv hinv hpc
  · exact State.finish_inv_of_exec hinv hrun he

end Sys2Proof.Machine
end

section
/-! Control flow: jumps, calls, returns and skips, and the obligations O34 to O39. -/

namespace Sys2Proof.Machine

/-! ### What a completed instruction leaves unchanged -/

/-- An instruction that leaves the fault record alone changes nothing but its listed parts and registers. -/
theorem exec_frame {i : Instr} {s t : State} {parts : List Part} {regs : List Reg} (h : exec i s = .next t)
    (hfault : t.fault = s.fault) (hparts : changedParts i ⊆ .fault :: parts)
    (hregs : ∀ r, mayWrite i r = true → r ∈ regs) : Frame parts regs s t where
  parts p hp := by
    by_cases hpf : p = .fault
    · subst hpf; exact hfault
    · exact exec_kept (q := .part p) h fun hchanged =>
        (List.mem_cons.1 (hparts hchanged)).elim hpf hp
  regs r hr := exec_kept (q := .reg r) h fun hwrite => hr (hregs r hwrite)

theorem State.setPc_frame (s : State) (w : Word) : Frame [.pc] [] s (s.setPc w) where
  parts p hp := (Place.kept_setPc (q := .part p) (by simpa using hp)).2 Place.kept_refl
  regs _ _ := rfl

/-! ### Jumps -/

/-- Settles O35: both jumps set `pc` alone, and neither target leaves 16 bits. -/
theorem jumpsReplaceThePc : Obligations.JumpsReplaceThePc := fun nnn s =>
  ⟨⟨_, rfl, zextAddr_toNat nnn, s.setPc_frame _⟩,
    ⟨_, rfl, zextAddr_add_zextByte_toNat nnn (s.readV 0), s.setPc_frame _⟩⟩

/-! ### Calls and returns -/

section
variable {s : State}

theorem exec_ret_of_empty (g : Nibble) (h : s.sp.val = 0) : exec (.ret g) s = raise .stackUnderflow 0 s :=
  if_pos h

theorem exec_ret_of_saved (g : Nibble) (h : s.sp.val ≠ 0) :
    exec (.ret g) s = .next (s.popSlot.setPc (s.topOfStack + 2#16)) :=
  if_neg h

theorem exec_call_of_room (nnn : Addr12) (h : s.sp.val < 16) :
    exec (.call nnn) s = .next ((s.pushPc h).setPc (zextAddr nnn)) :=
  dif_pos h

theorem exec_call_of_full (nnn : Addr12) (h : ¬ s.sp.val < 16) : exec (.call nnn) s = raise .stackOverflow 16 s :=
  dif_neg h

theorem State.topOfStack_eq {k : Fin 16} (h : s.sp.val = k.val + 1) : s.topOfStack = s.stack[k] := by
  simp [State.topOfStack, h]

end

/-- Settles O34: the slot read is the one below `sp`, and a return changes `pc` and `sp` alone. -/
theorem returnPopsTheSavedAddress : Obligations.ReturnPopsTheSavedAddress := by
  refine fun g s => ⟨fun k hk => ?_, fun hempty => exec_ret_of_empty g (Fin.val_eq_of_eq hempty)⟩
  have hexec := exec_ret_of_saved g (s := s) (by omega)
  refine ⟨_, hexec, ?_, ?_, exec_frame hexec rfl (by simp [changedParts]) nofun⟩
  · simp [hk]
  · rw [State.setPc_pc, State.topOfStack_eq hk]
    exact BitVec.toNat_add _ 2#16

/-- Settles O36: a push writes the slot at `sp` and no other. -/
theorem callPushesItsOwnAddress : Obligations.CallPushesItsOwnAddress := by
  refine fun nnn s => ⟨fun k hk => ?_, fun hfull => exec_call_of_full nnn (by simp [hfull])⟩
  have hroom : s.sp.val < 16 := by omega
  have hexec := exec_call_of_room nnn hroom
  refine ⟨_, hexec, ?_, ?_, zextAddr_toNat nnn, fun j hj => ?_,
    exec_frame hexec rfl (by simp [changedParts]) nofun⟩
  · simp [hk]
  · simp [hk]
  · exact Vector.getElem_set_ne hroom j.isLt fun h => hj (Fin.ext (h.symm.trans hk))

/-- Settles O37: the return pops the slot that the call pushed (O36), and continues 2 past the address in it (O34). -/
theorem returnResumesAfterTheCall : Obligations.ReturnResumesAfterTheCall := by
  intro nnn g s t u hroom hcall hsp hstack
  obtain ⟨k, hk⟩ : ∃ k : Fin 16, s.sp.val = k.val := ⟨⟨s.sp.val, by omega⟩, rfl⟩
  obtain ⟨t', ht', hslot, hdepth, -⟩ := (callPushesItsOwnAddress nnn s).1 k hk
  obtain rfl : t' = t := Host.Outcome.next.inj (ht'.symm.trans hcall)
  obtain ⟨w, hret, hwsp, hwpc, -⟩ := (returnPopsTheSavedAddress g u).1 k (hsp ▸ hdepth)
  rw [hstack, hslot] at hwpc
  exact ⟨w, hret, BitVec.eq_of_toNat_eq (hwpc.trans (BitVec.toNat_add s.pc 2#16).symm), Fin.ext (hwsp.trans hk.symm)⟩

/-! ### Skips -/

theorem State.skipIf_frame (s : State) (taken : Bool) : Frame [.pc] [] s (s.skipIf taken) := by
  rw [State.skipIf_eq]
  exact s.setPc_frame _

theorem State.skipIf_pc_toNat_mod (s : State) (taken : Bool) :
    (s.skipIf taken).pc.toNat = (s.pc.toNat + if taken then 4 else 2) % 65536 := by
  cases taken
  · exact BitVec.toNat_add s.pc 2#16
  · exact BitVec.toNat_add s.pc 4#16

/-- An instruction that skips on a test of a condition goes to `pc + 4` when the condition holds and else to `pc + 2`,
and writes `pc` alone (40_cycle.md R94). -/
theorem exec_skipIf {i : Instr} {s : State} {test : Bool} {condition : Prop} [Decidable condition]
    (h : exec i s = .next (s.skipIf test)) (htest : test = true ↔ condition) :
    ∃ t, exec i s = .next t ∧ t.pc.toNat = (s.pc.toNat + if condition then 4 else 2) % 65536 ∧ Frame [.pc] [] s t := by
  refine ⟨_, h, ?_, s.skipIf_frame test⟩
  simp only [State.skipIf_pc_toNat_mod, htest]

/-- Settles O38: the two tests compare a register with the immediate. -/
theorem immediateSkipsBranchOnTheirCondition : Obligations.ImmediateSkipsBranchOnTheirCondition := fun _ _ _ =>
  ⟨exec_skipIf rfl beq_iff_eq, exec_skipIf rfl bne_iff_ne⟩

/-- Settles O39: the two tests compare two registers, and no ignored nibble is read. -/
theorem registerSkipsBranchOnTheirCondition : Obligations.RegisterSkipsBranchOnTheirCondition := fun _ _ _ _ =>
  ⟨exec_skipIf rfl beq_iff_eq, exec_skipIf rfl bne_iff_ne⟩

end Sys2Proof.Machine
end

section
/-! Loads, the ALU group and random: the rules for an instruction that writes a register and advances, and the
obligations O40 to O44. -/

namespace Sys2Proof.Machine

/-! ### What a register write and an advance leave unchanged -/

section
variable {parts : List Part} {regs : List Reg} {s t : State}

theorem Frame.refl : Frame parts regs s s where
  parts p _ := Place.kept_refl (q := .part p)
  regs _ _ := rfl

theorem Frame.writeV {r : Reg} {b : Byte} (h : Frame parts regs s t) (hr : r ∈ regs) :
    Frame parts regs s (t.writeV r b) where
  parts p hp := (Place.kept_writeV (q := .part p) nofun).2 (h.parts p hp)
  regs q hq := (State.writeV_readV_other _ b (ne_of_mem_of_not_mem hr hq).symm).trans (h.regs q hq)

theorem Frame.advance (h : Frame parts regs s t) (hpc : .pc ∈ parts) : Frame parts regs s t.advance where
  parts p hp := (Place.kept_advance (q := .part p) fun hq => hp (Place.part.inj hq ▸ hpc)).2 (h.parts p hp)
  regs := h.regs

end

theorem State.advance_pc_toNat_mod (s : State) : s.advance.pc.toNat = (s.pc.toNat + 2) % 65536 :=
  BitVec.toNat_add s.pc 2#16

/-! ### Instructions that write one register -/

/-- An instruction that writes one register and advances answers the value written, and writes `pc` beside it. -/
theorem exec_writeV {i : Instr} {s : State} {x : Reg} {b : Byte} {v : Nat}
    (h : exec i s = .next (s.writeV x b).advance) (hb : b.toNat = v) :
    ∃ t, exec i s = .next t ∧ (t.readV x).toNat = v ∧ t.pc.toNat = (s.pc.toNat + 2) % 65536 ∧ Frame [.pc] [x] s t := by
  refine ⟨_, h, ?_, State.advance_pc_toNat_mod _, (Frame.refl.writeV (by simp)).advance (by simp)⟩
  rw [State.advance_readV, State.writeV_readV_same, hb]

/-- Settles O40: each of the six writes `V[X]` alone, with the value of its operation on bytes. -/
theorem loadsAndLogicWriteTheDestinationAlone : Obligations.LoadsAndLogicWriteTheDestinationAlone :=
  fun _ _ _ _ =>
    ⟨exec_writeV rfl rfl, exec_writeV rfl (BitVec.toNat_add _ _), exec_writeV rfl rfl,
      exec_writeV rfl (BitVec.toNat_or _ _), exec_writeV rfl (BitVec.toNat_and _ _),
      exec_writeV rfl (BitVec.toNat_xor _ _)⟩

/-- Settles O44: the byte drawn is the driven one where there is one, and a mask only clears bits. -/
theorem randomIsMaskedByTheImmediate : Obligations.RandomIsMaskedByTheImmediate := by
  intro x nn s
  have hexec : exec (.rnd x nn) s = .next (s.afterDraw.writeV x (s.draw &&& nn)).advance := rfl
  have hread : (s.afterDraw.writeV x (s.draw &&& nn)).advance.readV x = s.draw &&& nn := by simp
  refine ⟨_, s.draw, hexec, fun b hb => ?_, hread, ?_, rfl, rfl, State.advance_pc_toNat_mod _,
    exec_frame hexec rfl (by simp [changedParts]) (by simp [mayWrite])⟩
  · rw [State.draw, hb, Option.getD_some]
  · rw [hread, BitVec.toNat_and]
    exact Nat.and_le_right

/-! ### The flags as numbers -/

theorem boolByte_decide_toNat (p : Prop) [Decidable p] : (boolByte (decide p)).toNat = if p then 1 else 0 := by
  by_cases h : p <;> simp [boolByte, h]

theorem carryFlag_toNat (a b : Byte) : (carryFlag a b).toNat = if a.toNat + b.toNat > 255 then 1 else 0 :=
  boolByte_decide_toNat _

theorem greaterFlag_toNat (a b : Byte) : (greaterFlag a b).toNat = if a.toNat > b.toNat then 1 else 0 :=
  boolByte_decide_toNat _

theorem shrFlag_toNat (a : Byte) : (shrFlag a).toNat = a.toNat % 2 := by
  rw [shrFlag, BitVec.toNat_and]
  exact Nat.and_one_is_mod _

theorem ushiftRight_one_toNat (a : Byte) : (a >>> 1).toNat = a.toNat / 2 := by
  rw [BitVec.toNat_ushiftRight, Nat.shiftRight_eq_div_pow, pow_one]

theorem shiftLeft_one_toNat (a : Byte) : (a <<< 1).toNat = 2 * a.toNat % 256 := by
  rw [BitVec.toNat_shiftLeft, Nat.shiftLeft_eq, pow_one, Nat.mul_comm]

/-- Bit 7 of a byte is the quotient by 128, so masking it to one bit changes nothing. -/
theorem shlFlag_toNat (a : Byte) : (shlFlag a).toNat = a.toNat / 128 := by
  have hbit : (shlFlag a).toNat = a.toNat / 128 % 2 := by
    rw [shlFlag, BitVec.toNat_and, BitVec.toNat_ushiftRight, Nat.shiftRight_eq_div_pow]
    exact Nat.and_one_is_mod _
  omega

/-! ### Instructions that write VF and then a register -/

/-- An instruction that writes a flag to VF, then a result to `V[X]`, and advances (10_state.md R22): the result is what
`V[X]` holds, also where X is 0xF, and the flag stays where it is not. -/
theorem exec_writeV_VF_writeV {i : Instr} {s : State} {x : Reg} {f r : Byte}
    (h : exec i s = .next ((s.writeV VF f).writeV x r).advance) :
    ∃ t, exec i s = .next t ∧ t.readV x = r ∧ (x ≠ VF → t.readV VF = f) ∧ t.pc.toNat = (s.pc.toNat + 2) % 65536 ∧
      Frame [.pc] [x, VF] s t := by
  refine ⟨_, h, ?_, fun hx => ?_, State.advance_pc_toNat_mod _,
    ((Frame.refl.writeV (by simp)).writeV (by simp)).advance (by simp)⟩
  · rw [State.advance_readV, State.writeV_readV_same]
  · rw [State.advance_readV, State.writeV_readV_other _ r hx.symm, State.writeV_readV_same]

/-- Settles O41: the sum and the carry are both of the old operands, since the sum is taken before VF is written. -/
theorem addRegistersCarries : Obligations.AddRegistersCarries := by
  intro x y s
  obtain ⟨t, hexec, hsum, hflag, hpc, hframe⟩ := exec_writeV_VF_writeV (i := .addReg x y) (s := s) rfl
  refine ⟨t, hexec, ?_, fun hx => ?_, hpc, hframe⟩
  · rw [hsum, BitVec.toNat_add]
  · rw [hflag hx, carryFlag_toNat]

/-- A difference of two bytes, with the borrow taken before it so that no subtraction is cut off at 0. -/
theorem sub_toNat (a b : Byte) : (a - b).toNat = (256 + a.toNat - b.toNat) % 256 := by
  rw [BitVec.toNat_sub]
  omega

/-- The difference of two registers read after a flag write, where VF reads as the flag `k`. -/
theorem sub_toNat_of_writeV_VF {s : State} {f d : Byte} {k : Nat} (m n : Reg)
    (hd : d = (s.writeV VF f).readV m - (s.writeV VF f).readV n) (hf : f.toNat = k) :
    (m ≠ VF → n ≠ VF → d.toNat = (256 + (s.readV m).toNat - (s.readV n).toNat) % 256) ∧
      (m = VF → n ≠ VF → d.toNat = (256 + k - (s.readV n).toNat) % 256) ∧
      (m ≠ VF → n = VF → d.toNat = (256 + (s.readV m).toNat - k) % 256) ∧
      (m = VF → n = VF → d.toNat = 0) := by
  simp only [State.writeV_readV] at hd
  refine ⟨fun hm hn => ?_, fun hm hn => ?_, fun hm hn => ?_, fun hm hn => ?_⟩
  · rw [hd, if_neg hm, if_neg hn, sub_toNat]
  · rw [hd, if_pos hm, if_neg hn, sub_toNat, hf]
  · rw [hd, if_neg hm, if_pos hn, sub_toNat, hf]
  · rw [hd, if_pos hm, if_pos hn, BitVec.sub_self, BitVec.toNat_zero]

/-- Settles O42: both write their comparison first and then a difference of `V[X]` and `V[Y]`, 8XY7 with the two in the
other order. -/
theorem subtractsSetTheFlagFirst : Obligations.SubtractsSetTheFlagFirst := by
  intro x y s
  constructor
  · obtain ⟨t, hexec, hdiff, hflag, hpc, hframe⟩ := exec_writeV_VF_writeV (i := .subReg x y) (s := s) rfl
    have hgreater := greaterFlag_toNat (s.readV x) (s.readV y)
    obtain ⟨hneither, hx, hy, hboth⟩ := sub_toNat_of_writeV_VF x y hdiff hgreater
    exact ⟨t, hexec, fun h => hflag h ▸ hgreater, hneither, hx, hy, hboth, hpc, hframe⟩
  · obtain ⟨t, hexec, hdiff, hflag, hpc, hframe⟩ := exec_writeV_VF_writeV (i := .subnReg x y) (s := s) rfl
    have hgreater := greaterFlag_toNat (s.readV y) (s.readV x)
    obtain ⟨hneither, hy, hx, hboth⟩ := sub_toNat_of_writeV_VF y x hdiff hgreater
    exact ⟨t, hexec, fun h => hflag h ▸ hgreater, flip hneither, flip hx, flip hy, flip hboth, hpc, hframe⟩

/-- Settles O43: where X is 0xF the flag itself is shifted, so that SHR leaves 0 and SHL twice the bit shifted out. -/
theorem shiftsSetTheFlagFirst : Obligations.ShiftsSetTheFlagFirst := by
  intro x y s
  constructor
  · obtain ⟨t, hexec, hshift, hflag, hpc, hframe⟩ := exec_writeV_VF_writeV (i := .shr x y) (s := s) rfl
    refine ⟨t, hexec, fun hx => ⟨?_, ?_⟩, fun hx => ?_, hpc, hframe⟩
    · rw [hshift, State.writeV_readV_other _ _ hx, ushiftRight_one_toNat]
    · rw [hflag hx, shrFlag_toNat]
    · subst hx
      rw [hshift, State.writeV_readV_same, ushiftRight_one_toNat, shrFlag_toNat]
      omega
  · obtain ⟨t, hexec, hshift, hflag, hpc, hframe⟩ := exec_writeV_VF_writeV (i := .shl x y) (s := s) rfl
    refine ⟨t, hexec, fun hx => ⟨?_, ?_⟩, fun hx => ?_, hpc, hframe⟩
    · rw [hshift, State.writeV_readV_other _ _ hx, shiftLeft_one_toNat]
    · rw [hflag hx, shlFlag_toNat]
    · subst hx
      rw [hshift, State.writeV_readV_same, shiftLeft_one_toNat, shlFlag_toNat]
      omega

end Sys2Proof.Machine
end

section
/-! The display: clearing it, the three outcomes of a draw, and the obligations O45 to O48. -/

namespace Sys2Proof.Machine

/-- Settles O45: every cell of a cleared framebuffer is off, and 00E0 writes no register. -/
theorem clearTurnsEveryCellOff : Obligations.ClearTurnsEveryCellOff := by
  intro g s
  have hexec : exec (.cls g) s = .next (s.showFb Framebuffer.clear).advance := rfl
  exact ⟨_, hexec, fun x y _ _ => Framebuffer.cell_clear x y, rfl, State.advance_pc_toNat_mod _,
    exec_frame hexec rfl (by simp [changedParts]) nofun⟩

/-! ### The pixels that a DXYN draws -/

/-- The set pixels of the sprite that DXYN draws from a state, in its order: the coordinates are the registers before
the write phase (43_display.md R162). -/
def State.drwPixels (s : State) (x y : Reg) (n : Nibble) : List Pixel :=
  s.spritePixels (s.readV x).toNat (s.readV y).toNat n.toNat

section
variable {s : State} {x y : Reg} {n : Nibble}

theorem State.mem_drwPixels {px py : Nat} : (px, py) ∈ s.drwPixels x y n ↔
    ∃ r c, r < n.toNat ∧ c < 8 ∧ s.spriteBit r c ∧ px = (s.readV x).toNat + c ∧ py = (s.readV y).toNat + r := by
  simp only [State.drwPixels, State.mem_spritePixels, Prod.mk.injEq]

theorem State.drwPixels_nodup : (s.drwPixels x y n).Nodup := s.spritePixels_nodup ..

/-- The first set bit off the screen, as row and column, is the first such pixel of the list. -/
theorem State.firstOffScreen_drwPixels {r c : Nat}
    (h : s.firstBitOff (s.readV x).toNat (s.readV y).toNat n.toNat r c) :
    firstOffScreen (s.drwPixels x y n) = some ((s.readV x).toNat + c, (s.readV y).toNat + r) := by
  obtain ⟨hr, hc, hbit, hoff, hfirst⟩ := h
  refine (firstOffScreen_some (s.spritePixels_sorted ..)).2
    ⟨State.mem_drwPixels.2 ⟨r, c, hr, hc, hbit, rfl, rfl⟩, ?_, fun q hq hbefore => ?_⟩
  · rw [← Bool.not_eq_true, onScreen_iff]
    omega
  · obtain ⟨r', c', hr', hc', hbit', rfl⟩ := State.mem_spritePixels.1 hq
    have hearlier : r' < r ∨ r' = r ∧ c' < c := by
      simpa only [Pixel.before, Nat.add_lt_add_iff_left, Nat.add_left_cancel_iff] using hbefore
    have hon := hfirst r' c' hr' hc' hbit' hearlier
    exact onScreen_iff.2 (by omega)

/-! ### The three outcomes of a draw -/

theorem exec_drw_of_address_past_memory {a : Nat} (ha : firstOutOfRange s.i.toNat n.toNat = some a) :
    exec (.drw x y n) s = raise .memoryOutOfRange a s := by
  simp only [exec, execDrw, ha]

theorem exec_drw_of_pixel_off_screen {p : Pixel} (ha : firstOutOfRange s.i.toNat n.toNat = none)
    (hp : firstOffScreen (s.drwPixels x y n) = some p) :
    exec (.drw x y n) s = raise .drawOffScreen (offScreenInfo p) s := by
  rw [State.drwPixels] at hp
  simp only [exec, execDrw, ha, hp]

theorem exec_drw_of_on_screen (ha : firstOutOfRange s.i.toNat n.toNat = none)
    (hp : ∀ p ∈ s.drwPixels x y n, onScreen p = true) :
    exec (.drw x y n) s = .next (s.drawSprite (s.drwPixels x y n)) := by
  have hnone := firstOffScreen_none.2 hp
  rw [State.drwPixels] at hnone
  simp only [exec, execDrw, ha, hnone, State.drwPixels]

/-- A draw that does not fault has passed both checks. -/
theorem exec_drw_completed {t : State} (h : exec (.drw x y n) s = .next t) (ht : t.fault = none) :
    firstOutOfRange s.i.toNat n.toNat = none ∧ (∀ p ∈ s.drwPixels x y n, onScreen p = true) ∧
      t = s.drawSprite (s.drwPixels x y n) := by
  rcases execDrw_cases h with ⟨-, -, rfl⟩ | ⟨ha, ⟨p, -, rfl⟩ | ⟨hp, rfl⟩⟩
  · cases ht
  · cases ht
  · exact ⟨firstOutOfRange_eq_none_iff.2 ha, firstOffScreen_none.1 hp, rfl⟩

end

/-- Settles O47: the lowest address past memory, and else the first pixel off the screen, is what its check finds. -/
theorem drawFaultsOnTheFirstOffender : Obligations.DrawFaultsOnTheFirstOffender := by
  refine fun x y n s => ⟨fun r hr hpast hlow => ?_, fun r c hmem hfirst => ?_⟩
  · have hbelow := hlow (r - 1)
    exact exec_drw_of_address_past_memory (firstOutOfRange_eq_some_iff.2 (by omega))
  · have hlast := hmem (n.toNat - 1)
    exact exec_drw_of_pixel_off_screen (firstOutOfRange_none (by omega)) (State.firstOffScreen_drwPixels hfirst)

/-! ### What the write phase leaves -/

section
variable (s : State) {ps : List Pixel}

@[simp] theorem State.drawSprite_fault : (s.drawSprite ps).fault = s.fault := rfl

@[simp] theorem State.drawSprite_i : (s.drawSprite ps).i = s.i := rfl

@[simp] theorem State.drawSprite_readByte (a : Nat) : (s.drawSprite ps).readByte a = s.readByte a := rfl

theorem State.drawSprite_readV_other {r : Reg} (h : r ≠ VF) : (s.drawSprite ps).readV r = s.readV r :=
  State.writeV_readV_other _ _ h

@[simp] theorem State.drawSprite_spritePixels (x0 y0 n : Nat) :
    (s.drawSprite ps).spritePixels x0 y0 n = s.spritePixels x0 y0 n := by
  induction n with
  | zero => rfl
  | succ n ih => simp only [State.spritePixels, ih, State.drawSprite_readByte, State.drawSprite_i]

/-- A draw leaves the same sprite at the same place, unless VF, which it writes, is a coordinate. -/
theorem State.drawSprite_drwPixels {x y : Reg} (hx : x ≠ VF) (hy : y ≠ VF) (n : Nibble) :
    (s.drawSprite ps).drwPixels x y n = s.drwPixels x y n := by
  simp only [State.drwPixels, State.drawSprite_spritePixels, State.drawSprite_readV_other s hx,
    State.drawSprite_readV_other s hy]

variable (hd : ps.Nodup) (hs : ∀ p ∈ ps, onScreen p = true)
include hd hs

theorem State.drawSprite_cell (px py : Nat) : Framebuffer.cell (s.drawSprite ps).fb px py =
    if (px, py) ∈ ps then !Framebuffer.cell s.fb px py else Framebuffer.cell s.fb px py :=
  drawPixels_cell hd hs s.fb false px py

theorem State.drawSprite_readV_VF : (s.drawSprite ps).readV VF =
    if ∃ p ∈ ps, Framebuffer.cell s.fb p.1 p.2 = true then 1#8 else 0#8 := by
  have hflag : (s.drawSprite ps).readV VF = boolByte (drawPixels ps (s.fb, false)).2 :=
    State.writeV_readV_same _ VF _
  simp only [hflag, boolByte, drawPixels_collide hd hs]

/-- The second of two draws turns every cell back. -/
theorem State.drawSprite_drawSprite_fb : ((s.drawSprite ps).drawSprite ps).fb = s.fb := by
  refine Framebuffer.ext_cell fun px py _ _ => ?_
  rw [State.drawSprite_cell _ hd hs, State.drawSprite_cell _ hd hs]
  split
  · exact Bool.not_not _
  · rfl

end

/-- Settles O46: with both checks passed, the pixels of the write phase are the positions under the set bits. -/
theorem drawTogglesTheSpriteCells : Obligations.DrawTogglesTheSpriteCells := by
  intro x y n s hmem hon under
  have hunder (px py : Nat) : under px py ↔ (px, py) ∈ s.drwPixels x y n := State.mem_drwPixels.symm
  have hrange : firstOutOfRange s.i.toNat n.toNat = none := by
    have hlast := hmem (n.toNat - 1)
    exact firstOutOfRange_none (by omega)
  have hscreen : ∀ p ∈ s.drwPixels x y n, onScreen p = true := by
    rintro ⟨px, py⟩ hp
    obtain ⟨r, c, hr, hc, hbit, rfl, rfl⟩ := State.mem_drwPixels.1 hp
    have hle := hon r c hr hc hbit
    exact onScreen_iff.2 (by omega)
  have hexec := exec_drw_of_on_screen hrange hscreen
  have hflag := State.drawSprite_readV_VF s State.drwPixels_nodup hscreen
  refine ⟨_, hexec, fun px py _ _ => ?_, fun hhit => ?_, fun hmiss => ?_, rfl, State.advance_pc_toNat_mod _,
    exec_frame hexec rfl (by simp [changedParts]) (by simp [mayWrite])⟩
  · rw [hunder, State.drawSprite_cell s State.drwPixels_nodup hscreen]
    exact ⟨fun h => if_pos h, fun h => if_neg h⟩
  · obtain ⟨px, py, hu, hcell⟩ := hhit
    rw [hflag, if_pos ⟨(px, py), (hunder px py).1 hu, hcell⟩]
  · rw [hflag, if_neg fun ⟨p, hp, hcell⟩ => hmiss ⟨p.1, p.2, (hunder p.1 p.2).2 hp, hcell⟩]

/-- Settles O48: the second draw has the pixels of the first, passes the checks that it passed, and finds every cell
under them toggled. -/
theorem drawingTwiceRestoresTheScreen : Obligations.DrawingTwiceRestoresTheScreen := by
  intro x y n s t hx hy hs h ht
  obtain ⟨hrange, hscreen, rfl⟩ := exec_drw_completed h ht
  have hsame := s.drawSprite_drwPixels (ps := s.drwPixels x y n) hx hy n
  have hagain : exec (.drw x y n) (s.drawSprite (s.drwPixels x y n)) = _ :=
    exec_drw_of_on_screen hrange (hsame.symm ▸ hscreen)
  rw [hsame] at hagain
  refine ⟨_, hagain, hs, s.drawSprite_drawSprite_fb State.drwPixels_nodup hscreen, ?_⟩
  rintro ⟨r, c, hr, hc, hbit⟩ hoff
  have hpixel := (State.mem_drwPixels (x := x) (y := y)).2 ⟨r, c, hr, hc, hbit, rfl, rfl⟩
  have hcell := State.drawSprite_cell s State.drwPixels_nodup hscreen ((s.readV x).toNat + c) ((s.readV y).toNat + r)
  rw [if_pos hpixel, hoff r c hr hc hbit] at hcell
  rw [State.drawSprite_readV_VF _ State.drwPixels_nodup hscreen, if_pos ⟨_, hpixel, hcell⟩]

end Sys2Proof.Machine
end

section
/-! Keypad and timers: the key skips, the key wait and the timer transfers, and the obligations O49 to O51. -/

namespace Sys2Proof.Machine

/-! ### Key skips -/

section
variable {s : State} {x : Reg}

theorem State.key_readV_eq {k : Fin 16} (h : (s.readV x).toNat = k.val) : s.key (s.readV x).toNat = s.keys[k] :=
  (congrArg s.key h).trans (s.key_eq k.isLt)

theorem exec_skp_of_key {k : Fin 16} (h : (s.readV x).toNat = k.val) :
    exec (.skp x) s = .next (s.skipIf s.keys[k]) :=
  State.key_readV_eq h ▸ if_neg (by omega)

theorem exec_sknp_of_key {k : Fin 16} (h : (s.readV x).toNat = k.val) :
    exec (.sknp x) s = .next (s.skipIf (!s.keys[k])) :=
  State.key_readV_eq h ▸ if_neg (by omega)

theorem exec_skp_of_no_key (h : 15 < (s.readV x).toNat) :
    exec (.skp x) s = raise .keyIndexOutOfRange (s.readV x).toNat s :=
  if_pos h

theorem exec_sknp_of_no_key (h : 15 < (s.readV x).toNat) :
    exec (.sknp x) s = raise .keyIndexOutOfRange (s.readV x).toNat s :=
  if_pos h

end

/-- Settles O49: an index below 16 selects the key that the skip tests, and any other index only raises the fault. -/
theorem keySkipsReadTheSelectedKey : Obligations.KeySkipsReadTheSelectedKey := fun _ _ =>
  ⟨fun _ hk => ⟨exec_skipIf (exec_skp_of_key hk) Iff.rfl, exec_skipIf (exec_sknp_of_key hk) (by simp)⟩,
    fun hpast => ⟨exec_skp_of_no_key hpast, exec_sknp_of_no_key hpast⟩⟩

/-! ### Key wait -/

section
variable {s : State}

theorem State.lastPressed_eq_none (h : ∀ k : Fin 16, s.keys[k] = false) : s.lastPressed 16 = none :=
  State.lastPressed_none.2 fun k hk => (s.key_eq hk).trans (h ⟨k, hk⟩)

/-- A pressed key with none pressed above it is the one the scan of the keypad answers: some key is, and neither is
above the other. -/
theorem State.lastPressed_eq_some {k : Fin 16} (hk : s.keys[k] = true)
    (habove : ∀ j : Fin 16, k < j → s.keys[j] = false) : s.lastPressed 16 = some k.val := by
  have hkey : s.key k = true := (s.key_eq k.isLt).trans hk
  cases hscan : s.lastPressed 16 with
  | none => simp [State.lastPressed_none.1 hscan k k.isLt] at hkey
  | some j =>
    obtain ⟨hj, hjkey, hjabove⟩ := State.lastPressed_some hscan
    rcases lt_trichotomy k.val j with hlt | rfl | hgt
    · simp [s.key_eq hj, show s.keys[j] = false from habove ⟨j, hj⟩ hlt] at hjkey
    · rfl
    · simp [hjabove k hgt k.isLt] at hkey

theorem exec_ldVK_of_pressed (x : Reg) {k : Nat} (h : s.lastPressed 16 = some k) :
    exec (.ldVK x) s = .next (s.writeV x (BitVec.ofNat 8 k)).advance := by
  simp only [exec, execLdVK, h]

theorem exec_ldVK_of_none_pressed (x : Reg) (h : s.lastPressed 16 = none) : exec (.ldVK x) s = .next s := by
  simp only [exec, execLdVK, h]

end

/-- Settles O50: the scan answers the highest pressed key, whose number is a byte, or none. -/
theorem keyWaitTakesTheHighestPressedKey : Obligations.KeyWaitTakesTheHighestPressedKey := by
  refine fun x s => ⟨fun k hk habove => ?_, fun hnone => exec_ldVK_of_none_pressed x (State.lastPressed_eq_none hnone)⟩
  exact exec_writeV (exec_ldVK_of_pressed x (State.lastPressed_eq_some hk habove)) (Nat.mod_eq_of_lt (by omega))

/-! ### Timers -/

/-- Settles O51: each of the three copies one byte and advances, and the tick is no part of the execute phase. -/
theorem timerAccessMovesTheByte : Obligations.TimerAccessMovesTheByte := by
  intro x s
  have hread : exec (.ldVDt x) s = .next (s.writeV x s.dt).advance := rfl
  have hdelay : exec (.ldDtV x) s = .next (s.setDt (s.readV x)).advance := rfl
  have hsound : exec (.ldStV x) s = .next (s.setSt (s.readV x)).advance := rfl
  refine ⟨⟨_, hread, by simp, State.advance_pc_toNat_mod _, ?_⟩, ⟨_, hdelay, rfl, State.advance_pc_toNat_mod _, ?_⟩,
    ⟨_, hsound, rfl, State.advance_pc_toNat_mod _, ?_⟩⟩
  · exact exec_frame hread rfl (by simp [changedParts]) (by simp [mayWrite])
  · exact exec_frame hdelay rfl (by simp [changedParts]) nofun
  · exact exec_frame hsound rfl (by simp [changedParts]) nofun

end Sys2Proof.Machine
end

section
/-! The index register and memory transfer: the two outcomes of a checked transfer, the value of `I` after one, and the
obligations O52 to O57. -/

namespace Sys2Proof.Machine

/-! ### Loads and the sum of `I` -/

/-- Settles O52: 5 * 255 is below 65536, so the product of FX29 does not wrap. -/
theorem indexLoadsSetTheAddress : Obligations.IndexLoadsSetTheAddress := by
  intro x nnn s
  have hload : exec (.ldI nnn) s = .next (s.setI (zextAddr nnn)).advance := rfl
  have hglyph : exec (.ldF x) s = .next (s.setI (zextByte (s.readV x) * 5#16)).advance := rfl
  have hproduct : (zextByte (s.readV x) * 5#16).toNat = (s.readV x).toNat * 5 := by
    rw [BitVec.toNat_mul, zextByte_toNat, BitVec.toNat_ofNat]
    omega
  exact ⟨⟨_, hload, zextAddr_toNat nnn, State.advance_pc_toNat_mod _,
      exec_frame hload rfl (by simp [changedParts]) nofun⟩,
    ⟨_, hglyph, hproduct, State.advance_pc_toNat_mod _, exec_frame hglyph rfl (by simp [changedParts]) nofun⟩⟩

theorem indexFlag_toNat (i : Word) : (indexFlag i).toNat = if i.toNat > 0xFFF then 1 else 0 :=
  boolByte_decide_toNat _

/-- Settles O53: `V[X]` is read before VF is written, and the flag is of the sum as `I` holds it. -/
theorem indexAddSetsTheFlagFromTheSum : Obligations.IndexAddSetsTheFlagFromTheSum := by
  intro x s
  have hexec : exec (.addI x) s = .next ((s.setI (s.i + zextByte (s.readV x))).writeV VF
      (indexFlag (s.i + zextByte (s.readV x)))).advance := rfl
  have hsum : (s.i + zextByte (s.readV x)).toNat = (s.i.toNat + (s.readV x).toNat) % 65536 := by
    rw [BitVec.toNat_add, zextByte_toNat]
  refine ⟨_, hexec, hsum, ?_, State.advance_pc_toNat_mod _,
    exec_frame hexec rfl (by simp [changedParts]) (by simp [mayWrite])⟩
  rw [State.advance_readV, State.writeV_readV_same, indexFlag_toNat, hsum]

/-! ### The two outcomes of a transfer -/

section
variable (s : State) (x : Reg)

theorem exec_ldB_eq : exec (.ldB x) s =
    if s.i.toNat + 3 ≤ 4096 then .next (s.storeDigits s.i.toNat (s.readV x)).advance
    else raise .memoryOutOfRange (max s.i.toNat 4096) s := by
  split
  · next h => simp only [exec, execLdB, firstOutOfRange_none (.inr h)]
  · next h => simp only [exec, execLdB, firstOutOfRange_some (Nat.succ_ne_zero 2) (not_le.1 h)]

theorem exec_ldMemV_eq : exec (.ldMemV x) s =
    if s.i.toNat + (x.val + 1) ≤ 4096 then .next (s.storeRegs (x.val + 1)).advance
    else raise .memoryOutOfRange (max s.i.toNat 4096) s := by
  split
  · next h => simp only [exec, execLdMemV, firstOutOfRange_none (.inr h)]
  · next h => simp only [exec, execLdMemV, firstOutOfRange_some (Nat.succ_ne_zero _) (not_le.1 h)]

theorem exec_ldVMem_eq : exec (.ldVMem x) s =
    if s.i.toNat + (x.val + 1) ≤ 4096 then .next (s.loadRegs (x.val + 1)).advance
    else raise .memoryOutOfRange (max s.i.toNat 4096) s := by
  split
  · next h => simp only [exec, execLdVMem, firstOutOfRange_none (.inr h)]
  · next h => simp only [exec, execLdVMem, firstOutOfRange_some (Nat.succ_ne_zero _) (not_le.1 h)]

end

/-! ### The three digits of FX33 -/

/-- Settles O54: the three addresses are distinct, so each holds the digit stored there. -/
theorem bcdStoresThreeDigits : Obligations.BcdStoresThreeDigits := by
  refine fun x s => ⟨fun h => ?_, fun h => (exec_ldB_eq s x).trans (if_neg (by omega))⟩
  have hrange : s.i.toNat + 3 ≤ 4096 := by omega
  have hexec := (exec_ldB_eq s x).trans (if_pos hrange)
  have hbyte := State.storeDigits_readByte s s.i.toNat (s.readV x) hrange
  refine ⟨_, hexec, ?_, ?_, ?_, fun a ha => ?_, State.advance_pc_toNat_mod _,
    exec_frame hexec rfl (by simp [changedParts]) nofun⟩ <;> rw [State.advance_readByte, hbyte]
  · rw [if_pos rfl, hundreds_toNat]
  · rw [if_neg (by omega), if_pos rfl, tens_toNat]
  · rw [if_neg (by omega), if_neg (by omega), if_pos rfl, units_toNat]
  · rw [if_neg (by omega), if_neg (by omega), if_neg (by omega)]

/-! ### Dump and load -/

section
variable (s : State) {n : Nat}

/-- A range of at most 16 bytes that lies in memory ends at an address that `I` can hold. -/
theorem State.i_add_toNat (h : s.i.toNat + n ≤ 4096) : (s.i + BitVec.ofNat 16 n).toNat = s.i.toNat + n := by
  rw [BitVec.toNat_add, BitVec.toNat_ofNat]
  omega

/-- The load loop leaves in register `q` the byte at `I + q`. -/
theorem State.loadRegs_readV_loaded (h : s.i.toNat + n ≤ 4096) (hn : n ≤ 16) {q : Reg} (hq : q.val < n) :
    (s.loadRegs n).readV q = s.readByte (s.i.toNat + q.val) := by
  rw [State.loadRegs_readV _ _ h hn, if_pos hq]

end

/-- Settles O55: the store loop is run only where its whole range lies in memory. -/
theorem registerDumpStoresAscending : Obligations.RegisterDumpStoresAscending := by
  refine fun x s => ⟨fun h => ?_, fun h => (exec_ldMemV_eq s x).trans (if_neg (by omega))⟩
  have hrange : s.i.toNat + (x.val + 1) ≤ 4096 := by omega
  have hexec := (exec_ldMemV_eq s x).trans (if_pos hrange)
  refine ⟨_, hexec, fun k hk => s.storeRegs_readByte_stored hrange x.isLt (Nat.lt_succ_of_le hk), fun a ha => ?_,
    ?_, ?_, exec_frame hexec (s.storeRegs_fault _) (by simp [changedParts]) nofun⟩
  · rw [State.advance_readByte, State.storeRegs_readByte _ _ hrange x.isLt, if_neg (by omega)]
  · rw [State.advance_i, State.storeRegs_i, State.i_add_toNat s hrange, Nat.add_assoc]
  · rw [State.advance_pc_toNat_mod, State.storeRegs_pc]

/-- Settles O56: the load loop is run only where its whole range lies in memory, and writes no register above X. -/
theorem registerLoadReadsAscending : Obligations.RegisterLoadReadsAscending := by
  refine fun x s => ⟨fun h => ?_, fun h => (exec_ldVMem_eq s x).trans (if_neg (by omega))⟩
  have hrange : s.i.toNat + (x.val + 1) ≤ 4096 := by omega
  have hexec := (exec_ldVMem_eq s x).trans (if_pos hrange)
  refine ⟨_, hexec, fun k hk => s.loadRegs_readV_loaded hrange x.isLt (Nat.lt_succ_of_le hk), ?_, ?_,
    exec_frame hexec (s.loadRegs_fault _) (by simp [changedParts]) (by simp [mayWrite])⟩
  · rw [State.advance_i, State.loadRegs_i, State.i_add_toNat s hrange, Nat.add_assoc]
  · rw [State.advance_pc_toNat_mod, State.loadRegs_pc]

/-- Settles O57: FX65 reads the addresses that FX55 stored at (O55, O56), and both move `I` by the same amount. -/
theorem loadGivesBackTheDump : Obligations.LoadGivesBackTheDump := by
  intro x s h
  obtain ⟨t, hdump, hstored, -, hti, -, -⟩ := (registerDumpStoresAscending x s).1 h
  refine ⟨t, hdump, hti, fun u hui hbytes => ?_⟩
  obtain ⟨w, hload, hloaded, hwi, -, -⟩ := (registerLoadReadsAscending x u).1 (hui ▸ h)
  refine ⟨w, hload, fun k hk => ?_, BitVec.eq_of_toNat_eq ?_⟩
  · rw [hloaded k hk, hui, hbytes, hstored k hk]
  · rw [hwi, hui, hti]

end Sys2Proof.Machine
end

section
/-! Host actions and runs: what each action writes, the Faulted state until a boot, the invariant of a run, and the
obligations O27, O28 and O33. -/

namespace Sys2Proof.Machine

/-! ### Every run keeps the invariant -/

theorem State.init_inv (s : State) : s.init.Inv := { State.initial_inv s.mem.font with }

theorem State.storeImage_inv {s : State} (h : s.Inv) (a : Nat) (image : List Byte) : (s.storeImage a image).Inv := by
  rw [State.storeImage_frame]
  exact { h with memCanonical := State.storeImage_wf s a image h.memCanonical }

/-- `load` in the one case that answers a state. -/
theorem load_next {image : List Byte} {s t : State} (h : load image s = .next t) :
    t = s.storeImage Config.progBase image := by
  rw [load] at h
  split at h <;> cases h
  rfl

theorem hostAct_inv {a : HostAction} {s t : State} (hs : s.Inv) (h : hostAct a s = .next t) : t.Inv := by
  cases a with
  | boot image =>
    rw [load_next h]
    exact State.storeImage_inv s.init_inv _ _
  | setKey k pressed => cases h; exact { hs with }
  | redrawAck => cases h; exact { hs with }
  | driveRand b => cases h; exact { hs with }

/-- Settles O27: a step keeps the invariant (O25), and so does each action of the host. -/
theorem everyRunKeepsTheInvariant : Obligations.EveryRunKeepsTheInvariant := by
  refine fun events s t => runEvents_induction fun e s t hs h => ?_
  cases e with
  | step => exact stepKeepsTheInvariant s t hs h
  | host a => exact hostAct_inv hs h

/-! ### A run from a Faulted state -/

/-- No event but a boot writes more of a Faulted core than `Key`, `redraw`, the driven byte and the diagnostic. -/
theorem event_of_faulted {e : Event} {s t : State} (hs : s.fault ≠ none) (he : ∀ image, e ≠ .host (.boot image))
    (h : event e s = .next t) :
    t = { s with keys := t.keys, redraw := t.redraw, randByte := t.randByte, diag := t.diag } := by
  rcases e with _ | ⟨image⟩ | ⟨k, pressed⟩ | _ | ⟨b⟩
  case step => cases (step_of_faulted hs).symm.trans h; rfl
  case host.boot => exact absurd rfl (he image)
  case host.setKey | host.redrawAck | host.driveRand => cases h; rfl

/-- Settles O28, by induction on the events: after each one the core is Faulted with the same record. -/
theorem onlyBootLeavesTheFaultedState : Obligations.OnlyBootLeavesTheFaultedState := by
  intro events
  induction events with
  | nil => intro s t _ _ h; cases h; rfl
  | cons e rest ih =>
    intro s t hs hboot h
    obtain ⟨u, hu, hrest⟩ := runEvents_cons.1 h
    have hevent := event_of_faulted hs (fun image he => hboot image (he ▸ List.mem_cons_self)) hu
    have hfault : u.fault = s.fault := by rw [hevent]
    have hrun := ih u t (hfault ▸ hs) (fun image hmem => hboot image (List.mem_cons_of_mem e hmem)) hrest
    refine hrun.trans ?_
    rw [hevent]

/-! ### The actions other than a boot -/

/-- Settles O33: each action is one field update. -/
theorem hostActionsWriteTheirOwnField : Obligations.HostActionsWriteTheirOwnField := by
  refine fun k pressed b s => ⟨⟨_, rfl, Vector.getElem_set_self k.isLt, fun j hj => ?_, ?_⟩, ⟨_, rfl, rfl, ?_⟩,
    ⟨_, rfl, rfl, rfl, ?_⟩⟩
  · exact Vector.getElem_set_ne k.isLt j.isLt fun h => hj (Fin.ext h.symm)
  all_goals exact ⟨fun p hp => by cases p <;> simp [Part.unchanged, State.readByte] at hp ⊢, fun _ _ => rfl⟩

end Sys2Proof.Machine
end

section
/-! The timers and the diagnostic of a step, and the obligations O18 and O19. -/

namespace Sys2Proof.Machine

/-! ### The tick -/

theorem tickByte_toNat (b : Byte) : (tickByte b).toNat = b.toNat - 1 := by
  rw [tickByte]
  split
  · next h => rw [h]; rfl
  · next h => bv_omega

theorem mayChange_delayTimer_iff {i : Instr} : mayChange i (.part .delayTimer) ↔ ∃ x, i = .ldDtV x := by
  cases i <;> simp [mayChange, changedParts]

theorem mayChange_soundTimer_iff {i : Instr} : mayChange i (.part .soundTimer) ↔ ∃ x, i = .ldStV x := by
  cases i <;> simp [mayChange, changedParts]

/-- Only a running core's step ends in a state that is not Faulted. -/
theorem running_of_step {s t : State} (h : step s = .next t) (ht : t.fault = none) : s.running := by
  obtain ⟨t', h', hrun⟩ := everyStepAnswersANextState s
  obtain rfl : t' = t := Host.Outcome.next.inj (h'.symm.trans h)
  exact hrun ht

/-- Settles O18: the tick of a step that completes is of the timers its instruction leaves, which is `V[X]` for FX15
or FX18 and else the timer as it was. -/
theorem timersTickOncePerCompletedStep : Obligations.TimersTickOncePerCompletedStep := by
  refine fun s t h => ⟨fun ht => ?_, fun ht => ?_⟩
  · obtain ⟨e, he, -, rfl⟩ := step_completed h (running_of_step h ht) ht
    rw [State.timerTick_dt, State.timerTick_st, tickByte_toNat, tickByte_toNat]
    constructor
    · split
      next x hi => rw [hi] at he; cases he; rfl
      next hn =>
        have hmay : ¬ mayChange s.nextInstr (.part .delayTimer) := by simpa [mayChange_delayTimer_iff] using hn
        have hkept : e.dt = s.fetched.dt := exec_kept he hmay
        rw [hkept, State.fetched_dt]
    · split
      next x hi => rw [hi] at he; cases he; rfl
      next hn =>
        have hmay : ¬ mayChange s.nextInstr (.part .soundTimer) := by simpa [mayChange_soundTimer_iff] using hn
        have hkept : e.st = s.fetched.st := exec_kept he hmay
        rw [hkept, State.fetched_st]
  · by_cases hs : s.fault = none
    · exact ⟨step_faulted_kept (q := .part .delayTimer) h hs ht (by simp),
        step_faulted_kept (q := .part .soundTimer) h hs ht (by simp)⟩
    · cases (step_of_faulted hs).symm.trans h
      exact ⟨rfl, rfl⟩

/-! ### The diagnostic -/

/-- Settles O19: a running step outputs what its instruction does (`exec_diag`), and any other step outputs none. -/
theorem diagnosticExactlyOnUnknownOpcodes : Obligations.DiagnosticExactlyOnUnknownOpcodes := by
  intro s t h
  by_cases hs : s.running
  · obtain ⟨e, he, rfl⟩ := step_of_running h hs
    rw [State.finish_diag, exec_diag he]
    exact ⟨fun ⟨_, hunknown⟩ => if_pos hunknown, fun hn => if_neg fun hunknown => hn ⟨hs, hunknown⟩⟩
  · refine ⟨fun ⟨hrun, _⟩ => absurd hrun hs, fun _ => ?_⟩
    rcases step_of_not_running h hs with rfl | rfl <;> rfl

end Sys2Proof.Machine
end

section
/-! When a step faults: each cause and its condition, and the obligation O10. -/

namespace Sys2Proof.Machine

/-! ### The first pixel off the screen as a set bit of the sprite -/

/-- The converse of `State.firstOffScreen_drwPixels`: the first such pixel of the list is the first set bit off the
screen. -/
theorem State.firstBitOff_of_firstOffScreen {s : State} {x y : Reg} {n : Nibble} {p : Pixel}
    (h : firstOffScreen (s.drwPixels x y n) = some p) :
    ∃ r c, s.firstBitOff (s.readV x).toNat (s.readV y).toNat n.toNat r c ∧
      p = ((s.readV x).toNat + c, (s.readV y).toNat + r) := by
  obtain ⟨hmem, hoff, hfirst⟩ := (firstOffScreen_some (s.spritePixels_sorted ..)).1 h
  obtain ⟨r, c, hr, hc, hbit, rfl⟩ := State.mem_spritePixels.1 hmem
  rw [← Bool.not_eq_true, onScreen_iff] at hoff
  refine ⟨r, c, ⟨hr, hc, hbit, by omega, fun r' c' hr' hc' hbit' hbefore => ?_⟩, rfl⟩
  have hon := onScreen_iff.1 <| hfirst _ (State.mem_drwPixels.2 ⟨r', c', hr', hc', hbit', rfl, rfl⟩) <| by
    simpa only [Pixel.before, Nat.add_lt_add_iff_left, Nat.add_left_cancel_iff] using hbefore
  omega

/-! ### A step that faults meets the condition of its cause -/

/-- The range check records the lowest of the `n` addresses from `I` on that is past memory. -/
theorem State.faultCondition_memoryOutOfRange {s : State} {n : Nat} (hs : s.running) (ha : s.accesses n) (hn : n ≠ 0)
    (h : 4096 < s.i.toNat + n) : s.faultCondition .memoryOutOfRange (max s.i.toNat 4096) :=
  ⟨hs, n, max s.i.toNat 4096 - s.i.toNat, ha, by omega, by omega, by omega, fun j hj => by omega⟩

theorem exec_faultCondition {s e : State} {r : FaultRecord} (hs : s.running)
    (he : exec s.nextInstr s.fetched = .next e) (hr : e.fault = some r) : s.faultCondition r.cause r.info := by
  by_cases hmay : mayChange s.nextInstr (.part .fault)
  · cases hi : s.nextInstr <;> rw [hi] at he <;> simp [hi, mayChange, changedParts] at hmay
    case ret g =>
      rcases execRet_cases (g := g) he with ⟨hsp, rfl⟩ | ⟨-, rfl⟩
      · cases hr; exact ⟨hs, ⟨g, hi⟩, Fin.ext hsp, rfl⟩
      · simp [hs.1] at hr
    case call a =>
      rcases execCall_cases he with ⟨hsp, rfl⟩ | ⟨hroom, rfl⟩
      · cases hr; exact ⟨hs, ⟨a, hi⟩, Fin.ext hsp, rfl⟩
      · simp [hs.1] at hr
    case drw x y n =>
      rcases execDrw_cases he with ⟨hn, hout, rfl⟩ | ⟨-, ⟨p, hp, rfl⟩ | ⟨-, rfl⟩⟩
      · cases hr; exact State.faultCondition_memoryOutOfRange hs (.inl ⟨x, y, n, hi, rfl⟩) hn hout
      · obtain ⟨row, col, hbit, rfl⟩ := State.firstBitOff_of_firstOffScreen hp
        cases hr; exact ⟨hs, x, y, n, row, col, hi, hbit, rfl⟩
      · simp [hs.1] at hr
    case skp x =>
      rcases execSkp_cases he with ⟨hk, rfl⟩ | ⟨-, rfl⟩
      · cases hr; exact ⟨hs, x, .inl hi, hk, rfl⟩
      · simp [hs.1] at hr
    case sknp x =>
      rcases execSknp_cases he with ⟨hk, rfl⟩ | ⟨-, rfl⟩
      · cases hr; exact ⟨hs, x, .inr hi, hk, rfl⟩
      · simp [hs.1] at hr
    case ldB x =>
      rcases execLdB_cases he with ⟨hout, rfl⟩ | ⟨-, rfl⟩
      · cases hr
        exact State.faultCondition_memoryOutOfRange hs (.inr (.inl ⟨x, hi, rfl⟩)) (by omega) hout
      · cases hs.1.symm.trans hr
    case ldMemV x =>
      rcases execLdMemV_cases he with ⟨hout, rfl⟩ | ⟨-, rfl⟩
      · cases hr
        exact State.faultCondition_memoryOutOfRange hs (.inr (.inr (.inl ⟨x, hi, rfl⟩))) (by omega) hout
      · simp [hs.1] at hr
    case ldVMem x =>
      rcases execLdVMem_cases he with ⟨hout, rfl⟩ | ⟨-, rfl⟩
      · cases hr
        exact State.faultCondition_memoryOutOfRange hs (.inr (.inr (.inr ⟨x, hi, rfl⟩))) (by omega) hout
      · simp [hs.1] at hr
  · have hkept : e.fault = s.fetched.fault := exec_kept he hmay
    simp [hkept, hs.1] at hr

/-! ### A step under a condition faults -/

/-- An access past memory raises its fault at the range check, before any other effect of the instruction. -/
theorem exec_of_access_past_memory {s : State} {n : Nat} (ha : s.accesses n) (hn : n ≠ 0)
    (h : 4096 < s.i.toNat + n) :
    exec s.nextInstr s.fetched = raise .memoryOutOfRange (max s.i.toNat 4096) s.fetched := by
  rcases ha with ⟨x, y, k, hi, rfl⟩ | ⟨x, hi, rfl⟩ | ⟨x, hi, rfl⟩ | ⟨x, hi, rfl⟩ <;> rw [hi]
  · exact exec_drw_of_address_past_memory (firstOutOfRange_some hn h)
  · exact (exec_ldB_eq _ x).trans (if_neg (not_le.2 h))
  · exact (exec_ldMemV_eq _ x).trans (if_neg (not_le.2 h))
  · exact (exec_ldVMem_eq _ x).trans (if_neg (not_le.2 h))

/-- A draw with a set bit off the screen faults, if not on that bit then on an address, which it checks first. -/
theorem exec_drw_raises {s : State} {x y : Reg} {n : Nibble} {r c : Nat}
    (h : s.firstBitOff (s.readV x).toNat (s.readV y).toNat n.toNat r c) :
    ∃ cause info, exec (.drw x y n) s = raise cause info s := by
  cases ha : firstOutOfRange s.i.toNat n.toNat with
  | some a => exact ⟨_, _, exec_drw_of_address_past_memory ha⟩
  | none => exact ⟨_, _, exec_drw_of_pixel_off_screen ha (State.firstOffScreen_drwPixels h)⟩

/-- A condition is that of a fetch past memory, or one under which the running state's instruction raises a fault. -/
theorem State.faultCondition_raises {s : State} {cause : Fault} {info : Nat} (h : s.faultCondition cause info) :
    0xFFE < s.pc.toNat ∨ s.running ∧ ∃ c n, exec s.nextInstr s.fetched = raise c n s.fetched := by
  cases cause with
  | fetchOutOfRange => exact .inl (Nat.lt_of_succ_lt_succ h.1)
  | stackOverflow =>
    obtain ⟨hs, ⟨a, hi⟩, hsp, -⟩ := h
    exact .inr ⟨hs, _, _, hi ▸ exec_call_of_full a (by simp [hsp])⟩
  | stackUnderflow =>
    obtain ⟨hs, ⟨g, hi⟩, hsp, -⟩ := h
    exact .inr ⟨hs, _, _, hi ▸ exec_ret_of_empty (s := s.fetched) g (Fin.val_eq_of_eq hsp)⟩
  | memoryOutOfRange =>
    obtain ⟨hs, n, k, ha, hk, hinfo, hpast, -⟩ := h
    exact .inr ⟨hs, _, _, exec_of_access_past_memory ha (by omega) (by omega)⟩
  | drawOffScreen =>
    obtain ⟨hs, x, y, n, r, c, hi, hbit, -⟩ := h
    exact .inr ⟨hs, hi ▸ exec_drw_raises (s := s.fetched) hbit⟩
  | keyIndexOutOfRange =>
    obtain ⟨hs, x, hi | hi, hk, -⟩ := h
    · exact .inr ⟨hs, _, _, hi ▸ exec_skp_of_no_key (s := s.fetched) hk⟩
    · exact .inr ⟨hs, _, _, hi ▸ exec_sknp_of_no_key (s := s.fetched) hk⟩

/-- Settles O10: the codes are evaluated, and a step faults in its fetch or in its instruction. -/
theorem stepFaultsExactlyUnderItsConditions : Obligations.StepFaultsExactlyUnderItsConditions := by
  refine ⟨rfl, fun s t hs h => ⟨fun r hr => ?_, ?_⟩⟩
  · rcases step_cases h with ⟨r', hr', -⟩ | ⟨-, hpc, rfl⟩ | ⟨hrun, e, he, rfl⟩
    · cases hs.symm.trans hr'
    · cases hr; exact ⟨Nat.succ_lt_succ hpc, rfl⟩
    · exact exec_faultCondition hrun he (e.finish_fault ▸ hr)
  · rintro ⟨cause, info, hcond⟩
    rcases State.faultCondition_raises hcond with hpc | ⟨hrun, c, n, he⟩
    · cases (step_of_pc_past_memory hs hpc).symm.trans h
      simp
    · cases (step_of_exec hrun he).symm.trans h
      simp

end Sys2Proof.Machine
end

section
/-! No instruction but CXNN depends on the fields of the random port, and the obligation O22. -/

namespace Sys2Proof.Machine

/-- The state with another byte driven on the random port, or none, and another count of draws. -/
def State.withRandom (s : State) (b : Option Byte) (n : Nat) : State := { s with randByte := b, draws := n }

section
variable (s : State) (b : Option Byte) (n : Nat)

/-! ### The operations with a case split or a recursion of their own -/

theorem State.skipIf_withRandom (taken : Bool) :
    (s.withRandom b n).skipIf taken = (s.skipIf taken).withRandom b n := by
  cases taken <;> rfl

theorem State.finish_withRandom : (s.withRandom b n).finish = s.finish.withRandom b n := by
  cases h : s.fault with
  | none => rw [State.finish_of_running h, State.finish_of_running (s := s.withRandom b n) h]; rfl
  | some r => rw [State.finish_of_fault h, State.finish_of_fault (s := s.withRandom b n) h]

theorem State.lastPressed_withRandom (m : Nat) : (s.withRandom b n).lastPressed m = s.lastPressed m := by
  induction m with
  | zero => rfl
  | succ m ih => rw [State.lastPressed, ih]; rfl

theorem State.spritePixels_withRandom (x0 y0 m : Nat) :
    (s.withRandom b n).spritePixels x0 y0 m = s.spritePixels x0 y0 m := by
  induction m with
  | zero => rfl
  | succ m ih => rw [State.spritePixels, ih]; rfl

theorem State.storeRegs_withRandom (m : Nat) : (s.withRandom b n).storeRegs m = (s.storeRegs m).withRandom b n := by
  induction m with
  | zero => rfl
  | succ m ih => rw [State.storeRegs, ih]; rfl

theorem State.loadRegs_withRandom (m : Nat) : (s.withRandom b n).loadRegs m = (s.loadRegs m).withRandom b n := by
  induction m with
  | zero => rfl
  | succ m ih => rw [State.loadRegs, ih]; rfl

theorem State.drwPixels_withRandom (x y : Reg) (k : Nibble) :
    (s.withRandom b n).drwPixels x y k = s.drwPixels x y k :=
  s.spritePixels_withRandom b n _ _ _

end

/-! ### The execute phase -/

section
variable {s t : State} (b : Option Byte) (n : Nat)

theorem exec_drw_withRandom {x y : Reg} {k : Nibble} (h : exec (.drw x y k) s = .next t) :
    exec (.drw x y k) (s.withRandom b n) = .next (t.withRandom b n) := by
  have hpixels := s.drwPixels_withRandom b n x y k
  rcases execDrw_cases h with ⟨hk, hout, rfl⟩ | ⟨hrange, ⟨p, hp, rfl⟩ | ⟨hp, rfl⟩⟩
  · exact exec_drw_of_address_past_memory (firstOutOfRange_some hk hout)
  · exact exec_drw_of_pixel_off_screen (firstOutOfRange_none hrange) (hpixels ▸ hp)
  · have hscreen : ∀ p ∈ s.drwPixels x y k, onScreen p = true := firstOffScreen_none.1 hp
    have hexec := exec_drw_of_on_screen (s := s.withRandom b n) (firstOutOfRange_none hrange) (hpixels ▸ hscreen)
    rw [hexec, hpixels]
    rfl

/-- An instruction other than CXNN does the same whatever the random port holds, and leaves it as it is. -/
theorem exec_withRandom {i : Instr} (hi : ∀ x nn, i ≠ .rnd x nn) (h : exec i s = .next t) :
    exec i (s.withRandom b n) = .next (t.withRandom b n) := by
  cases i
  case rnd x nn => exact absurd rfl (hi x nn)
  case ret g =>
    rcases execRet_cases (g := g) h with ⟨hsp, rfl⟩ | ⟨hsp, rfl⟩
    · exact exec_ret_of_empty g hsp
    · exact exec_ret_of_saved g hsp
  case call a =>
    rcases execCall_cases h with ⟨hsp, rfl⟩ | ⟨hsp, rfl⟩
    · exact exec_call_of_full a hsp.not_lt
    · exact exec_call_of_room (s := s.withRandom b n) a hsp
  case drw => exact exec_drw_withRandom b n h
  case seImm | sneImm | seReg | sneReg => cases h; exact congrArg _ (s.skipIf_withRandom b n _)
  case skp x =>
    rcases execSkp_cases h with ⟨hk, rfl⟩ | ⟨hk, rfl⟩
    · exact exec_skp_of_no_key hk
    · exact (if_neg (not_lt.2 hk)).trans (congrArg _ (s.skipIf_withRandom b n _))
  case sknp x =>
    rcases execSknp_cases h with ⟨hk, rfl⟩ | ⟨hk, rfl⟩
    · exact exec_sknp_of_no_key hk
    · exact (if_neg (not_lt.2 hk)).trans (congrArg _ (s.skipIf_withRandom b n _))
  case ldVK x =>
    rcases execLdVK_cases h with ⟨rfl, hnone⟩ | ⟨k, hk, rfl⟩
    · exact exec_ldVK_of_none_pressed x ((State.lastPressed_withRandom ..).trans hnone)
    · exact exec_ldVK_of_pressed x ((State.lastPressed_withRandom ..).trans hk)
  case ldB x =>
    rcases execLdB_cases h with ⟨hout, rfl⟩ | ⟨hrange, rfl⟩
    · exact (exec_ldB_eq _ x).trans (if_neg (not_le.2 hout))
    · exact (exec_ldB_eq _ x).trans (if_pos hrange)
  case ldMemV x =>
    rcases execLdMemV_cases h with ⟨hout, rfl⟩ | ⟨hrange, rfl⟩
    · exact (exec_ldMemV_eq _ x).trans (if_neg (not_le.2 hout))
    · have hexec := (exec_ldMemV_eq (s.withRandom b n) x).trans (if_pos hrange)
      rw [hexec, State.storeRegs_withRandom]
      rfl
  case ldVMem x =>
    rcases execLdVMem_cases h with ⟨hout, rfl⟩ | ⟨hrange, rfl⟩
    · exact (exec_ldVMem_eq _ x).trans (if_neg (not_le.2 hout))
    · have hexec := (exec_ldVMem_eq (s.withRandom b n) x).trans (if_pos hrange)
      rw [hexec, State.loadRegs_withRandom]
      rfl
  all_goals cases h; rfl

end

/-! ### The step -/

/-- Settles O22: neither the Faulted check nor the fetch reads the port, and the instruction is not CXNN. -/
theorem randomPortIsSampledByRndAlone : Obligations.RandomPortIsSampledByRndAlone := by
  intro s t b n hi h
  change step (s.withRandom b n) = .next (t.withRandom b n)
  rcases step_cases h with ⟨r, hr, rfl⟩ | ⟨hnone, hpc, rfl⟩ | ⟨hrun, e, he, rfl⟩
  · exact step_of_faulted (s := s.withRandom b n) (by simp [State.withRandom, hr])
  · exact step_of_pc_past_memory (s := s.withRandom b n) hnone hpc
  · rw [← State.finish_withRandom]
    exact step_of_exec (s := s.withRandom b n) hrun (exec_withRandom b n (hi hrun) he)

end Sys2Proof.Machine
end

section
/-! The image copy of `load`, the entry point after a boot, the delay timer written and read back, and the obligations
O23, O31 and O32. -/

namespace Sys2Proof.Machine

/-! ### Load and boot -/

/-- `load` of an image that fits. -/
theorem load_of_length_le {image : List Byte} (h : image.length ≤ 3584) (s : State) :
    load image s = .next (s.storeImage 0x200 image) := if_pos h

/-- `load` of an image that does not fit. -/
theorem load_of_lt_length {image : List Byte} (h : 3584 < image.length) (s : State) :
    load image s = .refused (.imageTooLong image.length) := if_neg h.not_ge

/-- The image copy leaves byte `k` of the image at `a + k`. -/
theorem State.storeImage_readByte_stored (s : State) {a k : Nat} {image : List Byte} (h : a + image.length ≤ 4096)
    (hk : k < image.length) : (s.storeImage a image).readByte (a + k) = image[k] := by
  rw [State.storeImage_readByte s a image h, dif_pos (by omega)]
  simp only [Nat.add_sub_cancel_left]

/-- Settles O31: a longest image ends at the last byte of memory, and the copy changes its own range alone. -/
theorem loadCopiesTheImage : Obligations.LoadCopiesTheImage := by
  refine fun image s => ⟨fun hlen => ?_, fun hlen => load_of_lt_length hlen s⟩
  have hfit : 0x200 + image.length ≤ 4096 := by omega
  refine ⟨_, load_of_length_le hlen s, State.storeImage_frame .., fun k hk => ?_, fun a ha => ?_⟩
  · exact State.storeImage_readByte_stored s hfit hk
  · rw [State.storeImage_readByte s _ image hfit, dif_neg (by omega)]

/-- Settles O32: `load` keeps what `init` left in every register (O31), so the first fetch is at 0x200, where the image
begins. -/
theorem bootedCoreFetchesTheEntryPoint : Obligations.BootedCoreFetchesTheEntryPoint := by
  intro b0 b1 rest s hlen
  obtain ⟨t, hload, hframe, himage, -⟩ := (loadCopiesTheImage (b0 :: b1 :: rest) s.init).1 (Nat.add_le_add_right hlen 2)
  have hpc : t.pc = 0x200#16 := congrArg State.pc hframe
  have hfault : t.fault = none := congrArg State.fault hframe
  have hfirst : t.readByte 0x200 = b0 := himage 0 (by simp)
  have hsecond : t.readByte 0x201 = b1 := himage 1 (by simp)
  have hword : t.nextWord = wordOfBytes b0 b1 := by
    rw [State.nextWord, hpc]
    exact congrArg₂ wordOfBytes hfirst hsecond
  exact ⟨t, hload, ⟨hfault, by rw [hpc]; decide⟩, hpc, congrArg State.sp hframe, congrArg decodeWord hword⟩

/-! ### The delay timer, written and read back -/

@[simp] theorem State.finish_readV (s : State) (r : Reg) : s.finish.readV r = s.readV r := by
  rw [State.finish_eq]
  split <;> rfl

/-- A step of FX07 reads the delay timer as it was before the step's own tick (44_keypad_timer.md R182). -/
theorem step_ldVDt_readV {s t : State} {x : Reg} (h : step s = .next t) (hs : s.running)
    (hi : s.nextInstr = .ldVDt x) : t.readV x = s.dt := by
  obtain ⟨e, he, rfl⟩ := step_of_running h hs
  rw [hi] at he
  cases he
  simp

/-- Settles O23: the step of FX15 ticks the byte it wrote (O18), and FX07 reads it before its own tick. -/
theorem timerWriteThenReadLosesOneTick : Obligations.TimerWriteThenReadLosesOneTick := by
  intro s t u x y _ hwrite _ hst ht hread htu
  have hticked := ((timersTickOncePerCompletedStep s t hst).1 ht.1).1
  rw [hwrite] at hticked
  rw [step_ldVDt_readV htu ht hread, hticked]

end Sys2Proof.Machine
end
